-- ==== Sys2Proof/Word.lean ====
section
/-! DEFINITION. The word and byte types and the closed vocabularies of the vmz NaN-box core:
kinds of a Tagged Value, operand variants, native keys, flag names, codec errors, the value of a
double. -/

namespace Sys2Proof

/-- A Tagged Value or any other 64-bit quantity (10_state.md R25). -/
abbrev Word := BitVec 64

/-- One byte of an instruction record. -/
abbrev Byte := BitVec 8

/-- What the tagged-value decoder classifies a word as (R29). -/
inductive Kind where
  | float | int64 | uint64 | str | byte | other
  deriving DecidableEq, Repr

/-- The three kinds of the integer family (R102). -/
inductive IntKind where
  | int64 | uint64 | byte
  deriving DecidableEq, Repr

/-- The kind of word that an integer kind names. -/
def IntKind.toKind : IntKind → Kind
  | .int64 => .int64
  | .uint64 => .uint64
  | .byte => .byte

/-- An instruction's operand: exactly one of six variants (30_encoding.md R64). An `int64` payload
is the two's-complement form, a `float` payload the binary64 bit pattern. -/
inductive Operand where
  | value (w : Word)
  | none
  | int64 (i : Word)
  | uint64 (u : Word)
  | float (f : Word)
  | str (s : List Byte)
  deriving DecidableEq, Repr

/-- The key `native` looks up (R21, R77); `NativeKey.wf` bounds a name at STR_MAX bytes. -/
inductive NativeKey where
  | name (s : List Byte)
  | index (n : Word)
  deriving DecidableEq, Repr

/-- The six condition bits of the flags register (R16). -/
inductive Flag where
  | equal | greater | less | notEqual | greaterOrEqual | lessOrEqual
  deriving DecidableEq, Repr

/-- A failure of one `encode` or `decode` call, with the information R130 gives it. -/
inductive CodecError where
  /-- A Str operand longer than the record can hold, and its length (R69). -/
  | encodingTooLarge (length : Nat)
  /-- The buffer is shorter than the record it starts, and the buffer's length (R70). -/
  | truncatedRecord (length : Nat)
  /-- Malformed bytes, and the buffer (R70; at fetch the buffer is the 14 slot bytes). -/
  | invalidEncoding (buf : List Byte)
  deriving DecidableEq, Repr

/-- The value of a double that is not a NaN (R36): a sign and a magnitude. A finite magnitude is
counted in units of 2^-1074, the spacing of the subnormals, of which every finite double is a
whole number. -/
inductive FloatVal where
  | finite (neg : Bool) (mag : Nat)
  | infinite (neg : Bool)
  deriving DecidableEq, Repr

end Sys2Proof
end

