-- ==== Sys2Proof/Machine/Flags.lean ====
section
/-! DEFINITION. The flags register unit (10_state.md R16, R17) and the condition logic of `cmp`
(43_compare.md R110 to R112). -/

namespace Sys2Proof.Machine

/-- The bit index of a flag (R16). -/
def flagBit : Flag → Nat
  | .equal => 0
  | .greater => 1
  | .less => 2
  | .notEqual => 3
  | .greaterOrEqual => 4
  | .lessOrEqual => 5

/-- `set(k)`: writes the flag's bit to 1 (R17). -/
def setFlag (k : Flag) (f : BitVec 6) : BitVec 6 := f ||| (1#6 <<< flagBit k)

/-- `reset(k)`: writes the flag's bit to 0 (R17). -/
def resetFlag (k : Flag) (f : BitVec 6) : BitVec 6 := f &&& ~~~(1#6 <<< flagBit k)

/-- `test(k)`: the flag's bit (R17). -/
def testFlag (k : Flag) (f : BitVec 6) : Bool := f.getLsbD (flagBit k)

/-- `F.k <- v`, by `set` or `reset`. -/
def writeFlag (k : Flag) (v : Bool) (f : BitVec 6) : BitVec 6 :=
  if v then setFlag k f else resetFlag k f

/-- The six writes of `cmp` (R110, R112). -/
def conditionFlags (eq gt lt : Bool) (f : BitVec 6) : BitVec 6 :=
  writeFlag .equal eq (writeFlag .greater gt (writeFlag .less lt
    (writeFlag .notEqual (!eq) (writeFlag .greaterOrEqual (gt || eq)
      (writeFlag .lessOrEqual (lt || eq) f)))))

/-- The flags after comparing `x` (left) with `y` (right): `Compare` (R111) and the condition
logic. -/
def compareFlags (x y : Int) (f : BitVec 6) : BitVec 6 :=
  conditionFlags (decide (x = y)) (decide (y < x)) (decide (x < y)) f

end Sys2Proof.Machine
end

