-- ==== Sys2Proof/Config.lean ====
section
/-! DEFINITION. What one implementation fixes, and the values the spec leaves free. -/

namespace Sys2Proof

/-- `RECORD_CAPACITY`: the longest record, and the size of a program slot, in bytes (00_scope.md
R5, 30_encoding.md R62). -/
def Config.recordCapacity : Nat := 14

/-- `STR_MAX`: the longest string operand in bytes (R66). -/
def Config.strMax : Nat := Config.recordCapacity - 3

/-- `CANONICAL_NAN`, the word a float instruction pushes when its IEEE result is a NaN
(42_arithmetic.md R97; log entry 9: the spec's decision D16, which allows other words of kind
Other, so no claim should rest on its bits). -/
def Config.canonicalNaN : Word := 0x7FF8000000000000#64

/-- What the host answers to a `native` call (45_environment.md R129). -/
inductive HostAnswer where
  /-- `Return(S')`: the callback replaces the stack. -/
  | ret (stack : List Word)
  /-- `Fail`: the callback reports failure. -/
  | fail
  /-- The callback never returns (R129: a hang). -/
  | never
  deriving DecidableEq, Repr, Inhabited

/-- FREE VALUE (log entry 5): the host's answer to one native call, a draw no rule constrains
(R90, R129, I4). It may depend on which call it is (`draw`), on the callback and on the stack the
host is given, and on nothing else of the core (R129). -/
opaque Config.hostAnswer (draw : Nat) (callback : Nat) (stack : List Word) : HostAnswer

/-- FREE VALUE (log entry 3): what a program byte that the host did not write holds
(20_memory.md R47, I3). -/
opaque Config.unwrittenByte (addr : Nat) : Byte

end Sys2Proof
end

