-- ==== Sys2Proof/Machine/Value.lean ====
section
/-! DEFINITION. The tagged-value encoder/decoder: fields, classification, encoders, accessors and
result packers of the 64-bit Tagged Value (10_state.md R25 to R45). -/

namespace Sys2Proof.Machine

/-- `SIGN(w) = w[63]` (R25). -/
def signField (w : Word) : Bool := w.getLsbD 63

/-- `EXP(w) = w[62:52]` (R25). -/
def expField (w : Word) : BitVec 11 := w.extractLsb' 52 11

/-- `MANT(w) = w[51:0]` (R25). -/
def mantField (w : Word) : BitVec 52 := w.extractLsb' 0 52

/-- `TAG(w) = w[51:48]` (R25). -/
def tagField (w : Word) : BitVec 4 := w.extractLsb' 48 4

/-- `PAY(w) = w[47:0]` (R25). -/
def payField (w : Word) : BitVec 48 := w.extractLsb' 0 48

/-- The reserved tagging pattern: every binary64 NaN (R26). -/
def isReserved (w : Word) : Bool := expField w == 0x7FF#11 && mantField w != 0#52

/-- `TAG_INT64` (R28). -/
def tagInt64 : BitVec 4 := 1#4

/-- `TAG_UINT64` (R28). -/
def tagUInt64 : BitVec 4 := 2#4

/-- `TAG_STR` (R28). -/
def tagStr : BitVec 4 := 3#4

/-- `TAG_BYTE` (R28). -/
def tagByte : BitVec 4 := 4#4

/-- The kind of a word (R29). -/
def kind (w : Word) : Kind :=
  if !isReserved w then .float
  else if tagField w = tagInt64 then .int64
  else if tagField w = tagUInt64 then .uint64
  else if tagField w = tagStr then .str
  else if tagField w = tagByte then .byte
  else .other

/-- The box primitive (R30): sign, exponent ones, tag, and the magnitude modulo 2^48. -/
def box (tag : BitVec 4) (neg : Bool) (m : Nat) : Word :=
  BitVec.ofBool neg ++ 0x7FF#11 ++ tag ++ BitVec.ofNat 48 m

/-- `packInt` (R43): the sign is kept, the magnitude truncated to 48 bits, zero is positive. -/
def packInt (r : Int) : Word :=
  box tagInt64 (decide (r < 0) && r.natAbs % 2 ^ 48 != 0) r.natAbs

/-- `packUInt` (R43): modulo 2^48, also below zero. -/
def packUInt (r : Int) : Word := box tagUInt64 false (r % 2 ^ 48).toNat

/-- `packByte` (R43): modulo 2^8, also below zero. -/
def packByte (r : Int) : Word := box tagByte false (r % 2 ^ 8).toNat

/-- `pack_k` (R102). -/
def pack : IntKind → Int → Word
  | .int64, r => packInt r
  | .uint64, r => packUInt r
  | .byte, r => packByte r

/-- `fromFloat` (R31): the bits unchanged. -/
def fromFloat (f : Word) : Word := f

/-- `fromInt64` of a two's-complement 64-bit integer (R32). -/
def fromInt64 (i : Word) : Word := packInt i.toInt

/-- `fromUInt64` (R33). -/
def fromUInt64 (u : Word) : Word := box tagUInt64 false u.toNat

/-- `fromByte` (R34). -/
def fromByte (b : Byte) : Word := box tagByte false b.toNat

/-- `fromStrLen` (R35). -/
def fromStrLen (n : Nat) : Word := box tagStr false n

/-- `asInt64` (R37); no value on a word of another kind (R42). -/
def asInt64 (w : Word) : Option Int :=
  if kind w = .int64 then
    some (if signField w then -((payField w).toNat : Int) else ((payField w).toNat : Int))
  else none

/-- `asUInt64` (R38): the sign bit is ignored; no value on a word of another kind (R42). -/
def asUInt64 (w : Word) : Option Nat :=
  if kind w = .uint64 then some (payField w).toNat else none

/-- `asByte` (R39): bits 7:0; no value on a word of another kind (R42). -/
def asByte (w : Word) : Option Byte :=
  if kind w = .byte then some (w.extractLsb' 0 8) else none

/-- `asStrLen` (R40); no value on a word of another kind (R42). Only the host uses it. -/
def asStrLen (w : Word) : Option Nat :=
  if kind w = .str then some (payField w).toNat else none

/-- `asIndex` (R41): an instruction index, or `noIndex`. -/
def asIndex (w : Word) : Option Word :=
  match kind w with
  | .uint64 => (asUInt64 w).map (BitVec.ofNat 64)
  | .int64 =>
    match asInt64 w with
    | some i => if 0 ≤ i then some (BitVec.ofInt 64 i) else none
    | none => none
  | .float => none
  | .str => none
  | .byte => none
  | .other => none

/-- A word of the integer family, as its kind and its value `val_k` (R102). -/
def asInteger (w : Word) : Option (IntKind × Int) :=
  match kind w with
  | .int64 => (asInt64 w).map fun (i : Int) => (.int64, i)
  | .uint64 => (asUInt64 w).map fun (n : Nat) => (.uint64, (n : Int))
  | .byte => (asByte w).map fun (b : Byte) => (.byte, (b.toNat : Int))
  | .float => none
  | .str => none
  | .other => none

/-- A word the encoder of its kind can produce (R45). -/
def isCanonical (w : Word) : Bool :=
  match kind w with
  | .float => true
  | .int64 => !(signField w && payField w == 0#48)
  | .uint64 => !signField w
  | .str => !signField w
  | .byte => !signField w && w.extractLsb' 8 40 == 0#40
  | .other => false

end Sys2Proof.Machine
end

