-- ==== Sys2Proof/Machine/Float.lean ====
section
/-! DEFINITION. IEEE 754 binary64 arithmetic under roundTiesToEven (42_arithmetic.md R96, R97):
operands become exact integers in units of 2^-1074, the operation is exact, and one function rounds
the result. An operation answers `none` for a NaN. Log entry 10. -/

namespace Sys2Proof.Machine

/-- The value of a word that is not a NaN pattern, by the binary64 layout (R25, K1). -/
def floatValue (w : Word) : FloatVal :=
  let e := (expField w).toNat
  let f := (mantField w).toNat
  if e = 0x7FF then .infinite (signField w)
  else if e = 0 then .finite (signField w) f
  else .finite (signField w) ((2 ^ 52 + f) * 2 ^ (e - 1))

/-- `asFloat` (10_state.md R36); no value on a word of another kind (R42). -/
def asFloat (w : Word) : Option FloatVal :=
  if kind w = .float then some (floatValue w) else none

/-- The word with a sign bit and the 63 bits below it. -/
def signed63 (neg : Bool) (bits : Nat) : Word := BitVec.ofBool neg ++ BitVec.ofNat 63 bits

/-- Bits 62:0 of an infinity. -/
def infBits : Nat := 0x7FF * 2 ^ 52

/-- A signed infinity. -/
def infWord (neg : Bool) : Word := signed63 neg infBits

/-- The whole number nearest to `num / den`, ties to the even one. -/
def roundToEven (num den : Nat) : Nat :=
  let q := num / den
  let r := num % den
  if den < 2 * r then q + 1
  else if 2 * r = den then q + q % 2
  else q

/-- Bits 62:0 of the double nearest to `num / den` units of 2^-1074. With `k` the number of binades
above the subnormal spacing, the significand is the quotient rounded at spacing `2 ^ k`; adding
`k * 2 ^ 52` sets the exponent field, and a carry out of the significand moves to the next binade
by itself. Values past the largest double become infinity. -/
def roundBits (num den : Nat) : Nat :=
  let k := Nat.log2 (num / den) - 52
  min infBits (k * 2 ^ 52 + roundToEven num (den * 2 ^ k))

/-- A finite value as a signed integer of units. -/
def signedUnits (neg : Bool) (mag : Nat) : Int := if neg then -(mag : Int) else (mag : Int)

/-- The negation of a value. -/
def negFloat : FloatVal → FloatVal
  | .finite s m => .finite (!s) m
  | .infinite s => .infinite (!s)

/-- `fadd64` (R96). An exact zero sum is +0 unless both operands are −0. -/
def fadd64 : FloatVal → FloatVal → Option Word
  | .infinite s, .infinite t => if s = t then some (infWord s) else none
  | .infinite s, .finite _ _ => some (infWord s)
  | .finite _ _, .infinite t => some (infWord t)
  | .finite s m, .finite t n =>
    let r := signedUnits s m + signedUnits t n
    if r = 0 then some (signed63 (s && t) 0)
    else some (signed63 (decide (r < 0)) (roundBits r.natAbs 1))

/-- `fsub64` (R96): IEEE `x − y = x + (−y)`. -/
def fsub64 (x y : FloatVal) : Option Word := fadd64 x (negFloat y)

/-- `fmul64` (R96): the sign is the exclusive-or of the signs. -/
def fmul64 : FloatVal → FloatVal → Option Word
  | .infinite s, .infinite t => some (infWord (s ^^ t))
  | .infinite s, .finite t n => if n = 0 then none else some (infWord (s ^^ t))
  | .finite s m, .infinite t => if m = 0 then none else some (infWord (s ^^ t))
  | .finite s m, .finite t n => some (signed63 (s ^^ t) (roundBits (m * n) (2 ^ 1074)))

/-- `fdiv64` (R96). The zero-divisor results are IEEE 754's; `fdiv` faults before it asks for one
(R101). -/
def fdiv64 : FloatVal → FloatVal → Option Word
  | .infinite _, .infinite _ => none
  | .infinite s, .finite t _ => some (infWord (s ^^ t))
  | .finite s _, .infinite t => some (signed63 (s ^^ t) 0)
  | .finite s m, .finite t n =>
    if n = 0 then (if m = 0 then none else some (infWord (s ^^ t)))
    else some (signed63 (s ^^ t) (roundBits (m * 2 ^ 1074) n))

/-- The word a float instruction pushes: the double, or CANONICAL_NAN for a NaN (R97). -/
def floatResult : Option Word → Word
  | some w => fromFloat w
  | none => Config.canonicalNaN

/-- A divisor that is +0.0 or −0.0 (R101). -/
def floatIsZero : FloatVal → Bool
  | .finite _ m => m == 0
  | .infinite _ => false

/-- The value 1.0. -/
def floatOne : FloatVal := .finite false (2 ^ 1074)

/-- A value's place in the IEEE order: its units, an infinity beyond every finite double; the two
zeros have one place (43_compare.md R111). -/
def floatOrder : FloatVal → Int
  | .finite s m => signedUnits s m
  | .infinite s => signedUnits s (2 ^ 2098)

end Sys2Proof.Machine
end

