-- ==== Sys2Proof/Syntax.lean ====
section
/-! DEFINITION. The instructions: one constructor for each row of spec/opcode_table.json. -/

namespace Sys2Proof

/-- An instruction: an opcode paired with an operand (30_encoding.md R68, R74). Every opcode takes
every operand variant; an opcode that uses no operand ignores it (R78). -/
inductive Instr where
  | push (o : Operand)
  | pop (o : Operand)
  | fadd (o : Operand)
  | fsub (o : Operand)
  | fmul (o : Operand)
  | fdiv (o : Operand)
  | iadd (o : Operand)
  | isub (o : Operand)
  | imul (o : Operand)
  | idiv (o : Operand)
  | inc (o : Operand)
  | dec (o : Operand)
  | swap (o : Operand)
  | dup (o : Operand)
  | cmp (o : Operand)
  | jmp (o : Operand)
  | je (o : Operand)
  | jne (o : Operand)
  | jg (o : Operand)
  | jl (o : Operand)
  | jge (o : Operand)
  | jle (o : Operand)
  | dmp (o : Operand)
  | nop (o : Operand)
  | label (o : Operand)
  | native (o : Operand)
  | halt (o : Operand)
  deriving DecidableEq, Repr

/-- The operand the instruction carries. -/
def Instr.operand : Instr → Operand
  | .push o => o
  | .pop o => o
  | .fadd o => o
  | .fsub o => o
  | .fmul o => o
  | .fdiv o => o
  | .iadd o => o
  | .isub o => o
  | .imul o => o
  | .idiv o => o
  | .inc o => o
  | .dec o => o
  | .swap o => o
  | .dup o => o
  | .cmp o => o
  | .jmp o => o
  | .je o => o
  | .jne o => o
  | .jg o => o
  | .jl o => o
  | .jge o => o
  | .jle o => o
  | .dmp o => o
  | .nop o => o
  | .label o => o
  | .native o => o
  | .halt o => o

end Sys2Proof
end

