-- ==== Sys2Proof/Machine/State.lean ====
section
/-! DEFINITION. The state of the core, its reset value, the reasons a step stops, and one named
update for each field that an instruction or the host's load writes. -/

namespace Sys2Proof.Machine

/-- The run state `RS` (10_state.md R18). -/
inductive RunState where
  | running | halted | faulted
  deriving DecidableEq, Repr

/-- The ten fault and codec error names (60_exceptions.md R130). -/
inductive FaultKind where
  | encodingTooLarge | truncatedRecord | invalidEncoding | stackUnderflow | typeMismatch
  | divisionByZero | unknownNative | invalidOperand | stackOverflow | nativeFailed
  deriving DecidableEq, Repr

/-- The information a fault records (R130, last column). -/
inductive FaultInfo where
  /-- InvalidEncoding: the 14 slot bytes. -/
  | slotBytes (bytes : List Byte)
  /-- StackUnderflow: the words needed and the depth. -/
  | words (needed depth : Nat)
  /-- TypeMismatch of a binary instruction: the kinds of the left and right operand. -/
  | kinds (a b : Kind)
  /-- TypeMismatch of `inc` or `dec`: the kind of the top word. -/
  | kind (w : Kind)
  /-- DivisionByZero: nothing. -/
  | nothing
  /-- UnknownNative and NativeFailed: the key. -/
  | key (k : NativeKey)
  /-- InvalidOperand: the operand. -/
  | operand (o : Operand)
  /-- StackOverflow: the depth. -/
  | depth (n : Nat)
  deriving DecidableEq, Repr

/-- The error record `ERR` (R20, R133). -/
structure ErrorRecord where
  kind : FaultKind
  code : Nat
  ip   : Word
  path : String
  info : FaultInfo
  deriving DecidableEq, Repr

/-- Program memory as (address, byte) pairs: address `14 * i + k` is byte `k` of slot `i`
(20_memory.md R47; log entry 4). An unlisted address has not been written by the host. -/
abbrev Memory := List Host.Cell

/-- The whole state. The first seven fields are the architectural state of 10_state.md R11; the
next six are its launch parameters, which the host loads and no instruction writes (R147); the
last is the model's own. -/
structure State where
  /-- `S`, the operand stack; the head is the top word `S[0]` (R12). -/
  stack : List Word
  /-- `ip`, the index of the next instruction (R14). -/
  ip : Word
  /-- `H`, the halt flag (R15). -/
  haltFlag : Bool
  /-- `F`, the six condition bits (R16). -/
  flags : BitVec 6
  /-- `RS`, the run state (R18). -/
  runState : RunState
  /-- `OUT`, the diagnostic output, oldest word first (R19). -/
  out : List Word
  /-- `ERR`, the error record (R20). -/
  err : Option ErrorRecord
  /-- `N`, the number of program slots (20_memory.md R47). -/
  programLength : Word
  /-- `P`, the program memory (R47). -/
  program : Memory
  /-- `NATIVE_TABLE`: keys to callbacks, each callback a number (R21; log entry 8). Every run has a
  table that meets `nativeTableWf` (`State.Inv`). -/
  nativeTable : List (NativeKey × Nat)
  /-- `LABEL_MAP`: label names to instruction indices; no rule reads it (R22). -/
  labelMap : List (List Byte × Word)
  /-- `DIAG_PATH` (R23). -/
  diagPath : String
  /-- `STACK_DEPTH`, the stack's capacity; `none` is `unbounded` (R12). -/
  stackDepth : Option Nat
  /-- The model's own field (log entry 5): how many host answers have been drawn. -/
  hostDraw : Nat
  deriving DecidableEq, Repr

/-- Why a step has no next state. -/
inductive Fault where
  /-- Raised by `step` on a state with `RS = Halted`, which has no step (40_engine_step.md R89).
  Safe: the spec gives no behaviour there. -/
  | runHalted
  /-- Raised by `step` on a state with `RS = Faulted`, which has no step (R89, R135). Safe. -/
  | runFaulted
  deriving DecidableEq, Repr

/-- Why an instruction has no meaning. -/
inductive Refusal where
  /-- Raised by an arm of `exec` whose instruction has no meaning yet; no arm does. Safe. -/
  | notModelled (mnemonic : String)
  deriving DecidableEq, Repr

/-- The three outcomes of a step or of an instruction. -/
abbrev Result := Host.Outcome State Fault Refusal

/-- The state right after reset (70_reset_and_hazards.md R144), with nothing loaded: the launch
parameters are the host's to supply (log entry 2). -/
def State.reset : State where
  stack := []
  ip := 0#64
  haltFlag := false
  flags := 0#6
  runState := .running
  out := []
  err := none
  programLength := 0#64
  program := []
  nativeTable := []
  labelMap := []
  diagPath := ""
  stackDepth := none
  hostDraw := 0

/-- `S <- v`. -/
def State.withStack (s : State) (v : List Word) : State := { s with stack := v }

/-- `ip <- v`. -/
def State.withIp (s : State) (v : Word) : State := { s with ip := v }

/-- `H <- v`. -/
def State.withHaltFlag (s : State) (v : Bool) : State := { s with haltFlag := v }

/-- `F <- v`. -/
def State.withFlags (s : State) (v : BitVec 6) : State := { s with flags := v }

/-- `RS <- v`. -/
def State.withRunState (s : State) (v : RunState) : State := { s with runState := v }

/-- `OUT <- v`. -/
def State.withOut (s : State) (v : List Word) : State := { s with out := v }

/-- `ERR <- v`. -/
def State.withErr (s : State) (v : Option ErrorRecord) : State := { s with err := v }

/-- The host's load of program memory: `N` and `P`. -/
def State.withProgram (s : State) (n : Word) (p : Memory) : State :=
  { s with programLength := n, program := p }

/-- The number of host answers drawn. -/
def State.withHostDraw (s : State) (v : Nat) : State := { s with hostDraw := v }

end Sys2Proof.Machine
end

