-- ==== Sys2Proof/Machine/Ops.lean ====
section
/-! DEFINITION. The named operations the meanings share: program memory, the stack's capacity, the
instruction pointer's advance, and taking a fault. There is no trap return (60_exceptions.md
R135). -/

namespace Sys2Proof.Machine

/-- The byte at an address, or none where the host wrote none. -/
def Memory.read : Memory → Nat → Option Byte
  | [], _ => none
  | (b, v) :: rest, a => if a = b then some v else Memory.read rest a

/-- The memory with one byte written; the addresses stay strictly rising. -/
def Memory.write : Memory → Nat → Byte → Memory
  | [], a, v => [(a, v)]
  | (b, w) :: rest, a, v =>
    if a < b then (a, v) :: (b, w) :: rest
    else if a = b then (a, v) :: rest
    else (b, w) :: Memory.write rest a v

/-- The memory with consecutive bytes written from an address on. -/
def Memory.writeBytes : Memory → Nat → List Byte → Memory
  | m, _, [] => m
  | m, a, v :: vs => Memory.writeBytes (Memory.write m a v) (a + 1) vs

/-- Every address of the list is above `a`, and they rise strictly. -/
def Memory.risingFrom : Nat → Memory → Bool
  | _, [] => true
  | a, (b, _) :: rest => decide (a < b) && Memory.risingFrom b rest

/-- The canonical form: addresses strictly rising. An unlisted address has no value, so no entry
can equal what an unlisted address reads as. -/
def Memory.wf : Memory → Bool
  | [] => true
  | (a, _) :: rest => Memory.risingFrom a rest

/-- A push would overflow: `depth(S) = STACK_DEPTH` (10_state.md R12). Never when unbounded. -/
def stackFull (s : State) : Bool :=
  match s.stackDepth with
  | none => false
  | some n => s.stack.length == n

/-- `ip <- ip + 1` (40_engine_step.md R87). -/
def advance (s : State) : State := s.withIp (s.ip + 1#64)

/-- An instruction that replaces the stack and advances. -/
def completeWith (stack : List Word) (s : State) : Result := .next (advance (s.withStack stack))

/-- The numeric code of a fault or codec error (60_exceptions.md R130). -/
def faultCode : FaultKind → Nat
  | .encodingTooLarge => 1
  | .truncatedRecord => 2
  | .invalidEncoding => 3
  | .stackUnderflow => 4
  | .typeMismatch => 5
  | .divisionByZero => 6
  | .unknownNative => 7
  | .invalidOperand => 8
  | .stackOverflow => 9
  | .nativeFailed => 10

/-- Fault entry (R132, R133): only `RS` and `ERR` are written. -/
def enterFault (k : FaultKind) (info : FaultInfo) (s : State) : State :=
  (s.withRunState .faulted).withErr
    (some { kind := k, code := faultCode k, ip := s.ip, path := s.diagPath, info := info })

/-- `raise F(info)` (00_scope.md R9): the step ends in the fault's entry. -/
def raise (k : FaultKind) (info : FaultInfo) (s : State) : Result := .next (enterFault k info s)

/-- An instruction that needs the top word (10_state.md R13): StackUnderflow on an empty stack,
else `body S[0] rest`. -/
def withTop (s : State) (body : Word → List Word → Result) : Result :=
  match s.stack with
  | w :: rest => body w rest
  | [] => raise .stackUnderflow (.words 1 0) s

/-- `BinaryFetch` (42_arithmetic.md R95): StackUnderflow on fewer than two words, else
`body a b rest` with `a = S[1]` the left operand and `b = S[0]` the right one. -/
def withTwo (s : State) (body : Word → Word → List Word → Result) : Result :=
  match s.stack with
  | b :: a :: rest => body a b rest
  | [_] => raise .stackUnderflow (.words 2 1) s
  | [] => raise .stackUnderflow (.words 2 0) s

/-- The end of a binary ALU instruction: push the result, or DivisionByZero (R95). -/
def finishAlu (rest : List Word) (result : Option Word) (s : State) : Result :=
  match result with
  | some w => completeWith (w :: rest) s
  | none => raise .divisionByZero .nothing s

/-- The callback of a key: the first entry that has it (10_state.md R21). -/
def lookupNative : List (NativeKey × Nat) → NativeKey → Option Nat
  | [], _ => none
  | (k, c) :: rest, key => if key = k then some c else lookupNative rest key

/-- A host's stack held to `STACK_DEPTH` words (45_environment.md R129; log entry 6). -/
def boundStack (depth : Option Nat) (stack : List Word) : List Word :=
  match depth with
  | none => stack
  | some n => stack.take n

end Sys2Proof.Machine
end

