-- ==== Sys2Proof/Machine/IntAlu.lean ====
section
/-! DEFINITION. The integer family iadd, isub, imul, idiv, and inc and dec (42_arithmetic.md R102
to R109). -/

namespace Sys2Proof.Machine

/-- Two operands of one integer kind, with their values (R102); none for every other pair. -/
def sameInteger (a b : Word) : Option (IntKind × Int × Int) :=
  match asInteger a, asInteger b with
  | some (k, x), some (l, y) => if k = l then some (k, x, y) else none
  | _, _ => none

/-- The body the family shares (R102): the exact result is packed back into the operands' kind;
`op` answers none for a division by zero. -/
def intBinary (op : Int → Int → Option Int) (s : State) : Result :=
  withTwo s fun a b rest =>
    match sameInteger a b with
    | some (k, x, y) => finishAlu rest ((op x y).map (pack k)) s
    | none => raise .typeMismatch (.kinds (kind a) (kind b)) s

/-- `iadd` (R103). -/
def execIadd (_o : Operand) (s : State) : Result := intBinary (fun x y => some (x + y)) s

/-- `isub` (R104). -/
def execIsub (_o : Operand) (s : State) : Result := intBinary (fun x y => some (x - y)) s

/-- `imul` (R105). -/
def execImul (_o : Operand) (s : State) : Result := intBinary (fun x y => some (x * y)) s

/-- `idiv` (R106): truncated toward zero, which on the naturals of UInt64 and Byte is floor
division. -/
def execIdiv (_o : Operand) (s : State) : Result :=
  intBinary (fun x y => if y = 0 then none else some (x.tdiv y)) s

/-- A word plus or minus one in its own kind (R107, R108): `fop` on a Float with 1.0, `iop` on an
integer; none on Str and Other. -/
def stepWord (fop : FloatVal → FloatVal → Option Word) (iop : Int → Int) (w : Word) :
    Option Word :=
  match asFloat w, asInteger w with
  | some x, _ => some (floatResult (fop x floatOne))
  | none, some (k, i) => some (pack k (iop i))
  | none, none => none

/-- The body of `inc` and `dec`: the top word changed in place, or TypeMismatch. -/
def stepTop (f : Word → Option Word) (s : State) : Result :=
  withTop s fun w rest =>
    match f w with
    | some v => completeWith (v :: rest) s
    | none => raise .typeMismatch (.kind (kind w)) s

/-- `inc` (R107). -/
def execInc (_o : Operand) (s : State) : Result := stepTop (stepWord fadd64 (· + 1)) s

/-- `dec` (R108). -/
def execDec (_o : Operand) (s : State) : Result := stepTop (stepWord fsub64 (· - 1)) s

end Sys2Proof.Machine
end

