-- ==== Sys2Proof/Machine/Compare.lean ====
section
/-! DEFINITION. The compare instruction (43_compare.md R110 to R113). -/

namespace Sys2Proof.Machine

/-- The values `Compare` compares, for two words of one comparable kind (R111): the places of two
doubles in the IEEE order, or the values of two integers of one kind; none for every other pair. -/
def comparable (a b : Word) : Option (Int × Int) :=
  match asFloat a, asFloat b with
  | some x, some y => some (floatOrder x, floatOrder y)
  | _, _ => (sameInteger a b).map fun (_, x, y) => (x, y)

/-- `cmp` (R110). -/
def execCmp (_o : Operand) (s : State) : Result :=
  withTwo s fun a b rest =>
    match comparable a b with
    | some (x, y) => completeWith rest (s.withFlags (compareFlags x y s.flags))
    | none => raise .typeMismatch (.kinds (kind a) (kind b)) s

end Sys2Proof.Machine
end

