-- ==== Sys2Proof/Machine/Operands.lean ====
section
/-! DEFINITION. The operand multiplexer: what each kind of instruction reads from its operand
(30_encoding.md R74 to R77). `none` is the rules' `invalid`. -/

namespace Sys2Proof.Machine

/-- `ValueOf` (R75): the word `push` pushes. -/
def valueOf : Operand → Option Word
  | .value w => some w
  | .int64 i => some (fromInt64 i)
  | .uint64 u => some (fromUInt64 u)
  | .float f => some (fromFloat f)
  | .str s => some (fromStrLen s.length)
  | .none => none

/-- A non-negative 64-bit integer as an index. -/
def indexOfInt64 (i : Word) : Option Word := if 0 ≤ i.toInt then some i else none

/-- `TargetOf` (R76): a jump's target index. -/
def targetOf : Operand → Option Word
  | .uint64 u => some u
  | .int64 i => indexOfInt64 i
  | .value w => asIndex w
  | .none => none
  | .float _ => none
  | .str _ => none

/-- `NativeKeyOf` (R77): the key `native` looks up. -/
def nativeKeyOf : Operand → Option NativeKey
  | .str s => some (.name s)
  | .uint64 u => some (.index u)
  | .int64 i => (indexOfInt64 i).map .index
  | .value w => (asIndex w).map .index
  | .none => none
  | .float _ => none

end Sys2Proof.Machine
end

