-- ==== Sys2Proof/Machine/Control.lean ====
section
/-! DEFINITION. Control transfer and sequencing: jmp, je, jne, jg, jl, jge, jle, nop, label, halt
(44_control.md R114 to R125). -/

namespace Sys2Proof.Machine

/-- A jump (R114): InvalidOperand when the operand gives no target, whether or not it is taken;
then the target when taken, else the next instruction. -/
def jumpWhen (taken : Bool) (o : Operand) (s : State) : Result :=
  match targetOf o with
  | none => raise .invalidOperand (.operand o) s
  | some t => .next (if taken then s.withIp t else advance s)

/-- `CondJump` (R116): taken when the flag is 1. -/
def condJump (k : Flag) (o : Operand) (s : State) : Result := jumpWhen (testFlag k s.flags) o s

/-- `jmp` (R115). -/
def execJmp (o : Operand) (s : State) : Result := jumpWhen true o s

/-- `je` (R117). -/
def execJe (o : Operand) (s : State) : Result := condJump .equal o s

/-- `jne` (R118). -/
def execJne (o : Operand) (s : State) : Result := condJump .notEqual o s

/-- `jg` (R119). -/
def execJg (o : Operand) (s : State) : Result := condJump .greater o s

/-- `jl` (R120). -/
def execJl (o : Operand) (s : State) : Result := condJump .less o s

/-- `jge` (R121). -/
def execJge (o : Operand) (s : State) : Result := condJump .greaterOrEqual o s

/-- `jle` (R122). -/
def execJle (o : Operand) (s : State) : Result := condJump .lessOrEqual o s

/-- `nop` (R123). -/
def execNop (_o : Operand) (s : State) : Result := .next (advance s)

/-- `label` (R124). -/
def execLabel (_o : Operand) (s : State) : Result := .next (advance s)

/-- `halt` (R125). -/
def execHalt (_o : Operand) (s : State) : Result :=
  .next (((advance s).withHaltFlag true).withRunState .halted)

end Sys2Proof.Machine
end

