-- ==== Sys2Proof/Machine/Environment.lean ====
section
/-! DEFINITION. The environment instructions: dmp and native (45_environment.md R127 to R129). -/

namespace Sys2Proof.Machine

/-- `dmp` (R127): the top word is appended to `OUT`. -/
def execDmp (_o : Operand) (s : State) : Result :=
  withTop s fun w _ => .next (advance (s.withOut (s.out ++ [w])))

/-- The state after the host's answer (R128): a returned stack replaces the stack; `Fail` is a
fault; a callback that never returns leaves the run in this instruction for ever (R129, log entry
7), so the state does not change and the same step comes again. -/
def applyAnswer (key : NativeKey) (ans : HostAnswer) (s : State) : Result :=
  match ans with
  | .ret stack =>
    completeWith (boundStack s.stackDepth stack) (s.withHostDraw (s.hostDraw + 1))
  | .fail => raise .nativeFailed (.key key) s
  | .never => .next s

/-- `native` (R128). The answer is a free value (log entry 5). -/
def execNative (o : Operand) (s : State) : Result :=
  match nativeKeyOf o with
  | none => raise .invalidOperand (.operand o) s
  | some key =>
    match lookupNative s.nativeTable key with
    | none => raise .unknownNative (.key key) s
    | some c => applyAnswer key (Config.hostAnswer s.hostDraw c s.stack) s

end Sys2Proof.Machine
end

