-- ==== Sys2Proof/Machine/FloatAlu.lean ====
section
/-! DEFINITION. The float family: fadd, fsub, fmul, fdiv (42_arithmetic.md R95 to R101). -/

namespace Sys2Proof.Machine

/-- The body the family shares (R96): both operands Float, else TypeMismatch; `op` answers none for
a division by zero. -/
def floatBinary (op : FloatVal → FloatVal → Option Word) (s : State) : Result :=
  withTwo s fun a b rest =>
    match asFloat a, asFloat b with
    | some x, some y => finishAlu rest (op x y) s
    | _, _ => raise .typeMismatch (.kinds (kind a) (kind b)) s

/-- `fadd` (R98). -/
def execFadd (_o : Operand) (s : State) : Result :=
  floatBinary (fun x y => some (floatResult (fadd64 x y))) s

/-- `fsub` (R99). -/
def execFsub (_o : Operand) (s : State) : Result :=
  floatBinary (fun x y => some (floatResult (fsub64 x y))) s

/-- `fmul` (R100). -/
def execFmul (_o : Operand) (s : State) : Result :=
  floatBinary (fun x y => some (floatResult (fmul64 x y))) s

/-- `fdiv` (R101): a divisor of +0.0 or −0.0 is a DivisionByZero, whatever the dividend. -/
def execFdiv (_o : Operand) (s : State) : Result :=
  floatBinary (fun x y => if floatIsZero y then none else some (floatResult (fdiv64 x y))) s

end Sys2Proof.Machine
end

