-- ==== Sys2Proof/Machine/Stack.lean ====
section
/-! DEFINITION. The stack instructions: push, pop, swap, dup (41_stack.md R91 to R94). -/

namespace Sys2Proof.Machine

/-- A push of one word: StackOverflow when the stack is full. -/
def pushWord (w : Word) (s : State) : Result :=
  if stackFull s then raise .stackOverflow (.depth s.stack.length) s
  else completeWith (w :: s.stack) s

/-- `push` (R91). -/
def execPush (o : Operand) (s : State) : Result :=
  match valueOf o with
  | none => raise .invalidOperand (.operand o) s
  | some v => pushWord v s

/-- `pop` (R92). -/
def execPop (_o : Operand) (s : State) : Result :=
  withTop s fun _ rest => completeWith rest s

/-- `swap` (R93). -/
def execSwap (_o : Operand) (s : State) : Result :=
  withTwo s fun a b rest => completeWith (a :: b :: rest) s

/-- `dup` (R94). -/
def execDup (_o : Operand) (s : State) : Result :=
  withTop s fun w _ => pushWord w s

end Sys2Proof.Machine
end

