-- ==== Sys2Proof/Machine/Dispatch.lean ====
section
/-! DEFINITION. Dispatch: one arm per instruction (40_engine_step.md R86). -/

namespace Sys2Proof.Machine

/-- `Exec(op, opnd)` (R86). -/
def exec (i : Instr) (s : State) : Host.Outcome State Fault Refusal :=
  match i with
  | .push o => Sys2Proof.Machine.execPush o s
  | .pop o => Sys2Proof.Machine.execPop o s
  | .fadd o => Sys2Proof.Machine.execFadd o s
  | .fsub o => Sys2Proof.Machine.execFsub o s
  | .fmul o => Sys2Proof.Machine.execFmul o s
  | .fdiv o => Sys2Proof.Machine.execFdiv o s
  | .iadd o => Sys2Proof.Machine.execIadd o s
  | .isub o => Sys2Proof.Machine.execIsub o s
  | .imul o => Sys2Proof.Machine.execImul o s
  | .idiv o => Sys2Proof.Machine.execIdiv o s
  | .inc o => Sys2Proof.Machine.execInc o s
  | .dec o => Sys2Proof.Machine.execDec o s
  | .swap o => Sys2Proof.Machine.execSwap o s
  | .dup o => Sys2Proof.Machine.execDup o s
  | .cmp o => Sys2Proof.Machine.execCmp o s
  | .jmp o => Sys2Proof.Machine.execJmp o s
  | .je o => Sys2Proof.Machine.execJe o s
  | .jne o => Sys2Proof.Machine.execJne o s
  | .jg o => Sys2Proof.Machine.execJg o s
  | .jl o => Sys2Proof.Machine.execJl o s
  | .jge o => Sys2Proof.Machine.execJge o s
  | .jle o => Sys2Proof.Machine.execJle o s
  | .dmp o => Sys2Proof.Machine.execDmp o s
  | .nop o => Sys2Proof.Machine.execNop o s
  | .label o => Sys2Proof.Machine.execLabel o s
  | .native o => Sys2Proof.Machine.execNative o s
  | .halt o => Sys2Proof.Machine.execHalt o s

end Sys2Proof.Machine
end

