-- ==== Sys2Proof/WellFormed.lean ====
section
/-! DEFINITION. Which instructions can be encoded, and which native keys and tables there are. -/

namespace Sys2Proof

/-- A string operand fits the record's capacity (30_encoding.md R66); every other variant has no
condition. -/
def Operand.wf : Operand → Bool
  | .str s => s.length ≤ Config.strMax
  | .value _ => true
  | .none => true
  | .int64 _ => true
  | .uint64 _ => true
  | .float _ => true

/-- An instruction is well-formed when its operand is (R69: an instruction with another opcode
cannot be formed). -/
def Instr.wf (i : Instr) : Bool := i.operand.wf

/-- A name is a byte string of at most STR_MAX bytes; every 64-bit index is a key (10_state.md
R21). -/
def NativeKey.wf : NativeKey → Bool
  | .name s => s.length ≤ Config.strMax
  | .index _ => true

/-- A list of pairs is a finite partial map from native keys (R21): each key is one, and stands
once. -/
def nativeTableWf (table : List (NativeKey × Nat)) : Bool :=
  (table.all fun p => p.1.wf) && decide (table.map Prod.fst).Nodup

end Sys2Proof
end

