-- ==== Sys2Proof/Decode.lean ====
section
/-! DEFINITION. The binary instruction record codec: decode and encode (30_encoding.md R62 to R73,
R79), and the host's entry decodeTableWord. -/

namespace Sys2Proof

/-- The 64-bit payload of eight bytes, the first byte holding bits 7:0 (20_memory.md R51). -/
def leWord (b0 b1 b2 b3 b4 b5 b6 b7 : Byte) : Word :=
  b7 ++ b6 ++ b5 ++ b4 ++ b3 ++ b2 ++ b1 ++ b0

/-- `le64`: the eight bytes of a word, least significant first (R69). -/
def leBytes (w : Word) : List Byte :=
  [w.extractLsb' 0 8, w.extractLsb' 8 8, w.extractLsb' 16 8, w.extractLsb' 24 8,
   w.extractLsb' 32 8, w.extractLsb' 40 8, w.extractLsb' 48 8, w.extractLsb' 56 8]

/-- The instruction an opcode byte selects (R68); none for the illegal bytes 0x1B to 0xFF (R79). -/
def instrOfOpcode (op : Byte) : Option (Operand → Instr) :=
  match op.toNat with
  | 0x00 => some .push
  | 0x01 => some .pop
  | 0x02 => some .fadd
  | 0x03 => some .fsub
  | 0x04 => some .fmul
  | 0x05 => some .fdiv
  | 0x06 => some .iadd
  | 0x07 => some .isub
  | 0x08 => some .imul
  | 0x09 => some .idiv
  | 0x0A => some .inc
  | 0x0B => some .dec
  | 0x0C => some .swap
  | 0x0D => some .dup
  | 0x0E => some .cmp
  | 0x0F => some .jmp
  | 0x10 => some .je
  | 0x11 => some .jne
  | 0x12 => some .jg
  | 0x13 => some .jl
  | 0x14 => some .jge
  | 0x15 => some .jle
  | 0x16 => some .dmp
  | 0x17 => some .nop
  | 0x18 => some .label
  | 0x19 => some .native
  | 0x1A => some .halt
  | _ => none

/-- The opcode byte of an instruction (R68). -/
def opcodeByte : Instr → Byte
  | .push _ => 0x00#8
  | .pop _ => 0x01#8
  | .fadd _ => 0x02#8
  | .fsub _ => 0x03#8
  | .fmul _ => 0x04#8
  | .fdiv _ => 0x05#8
  | .iadd _ => 0x06#8
  | .isub _ => 0x07#8
  | .imul _ => 0x08#8
  | .idiv _ => 0x09#8
  | .inc _ => 0x0A#8
  | .dec _ => 0x0B#8
  | .swap _ => 0x0C#8
  | .dup _ => 0x0D#8
  | .cmp _ => 0x0E#8
  | .jmp _ => 0x0F#8
  | .je _ => 0x10#8
  | .jne _ => 0x11#8
  | .jg _ => 0x12#8
  | .jl _ => 0x13#8
  | .jge _ => 0x14#8
  | .jle _ => 0x15#8
  | .dmp _ => 0x16#8
  | .nop _ => 0x17#8
  | .label _ => 0x18#8
  | .native _ => 0x19#8
  | .halt _ => 0x1A#8

/-- The operand of a format W record, whose payload is eight bytes (R63, R64). -/
def decodeWordOperand (variant : Word → Operand) (buf payload : List Byte) :
    Except CodecError (Operand × Nat) :=
  match payload with
  | b0 :: b1 :: b2 :: b3 :: b4 :: b5 :: b6 :: b7 :: _ =>
    .ok (variant (leWord b0 b1 b2 b3 b4 b5 b6 b7), 10)
  | _ => .error (.truncatedRecord buf.length)

/-- The operand of a format S record: a length byte and that many bytes, in the check order of
R71. -/
def decodeStrOperand (buf payload : List Byte) : Except CodecError (Operand × Nat) :=
  match payload with
  | [] => .error (.truncatedRecord buf.length)
  | n :: rest =>
    if Config.strMax < n.toNat then .error (.invalidEncoding buf)
    else if rest.length < n.toNat then .error (.truncatedRecord buf.length)
    else .ok (.str (rest.take n.toNat), 3 + n.toNat)

/-- The operand that the operand tag selects, and the length of the whole record (R64, R67). -/
def decodeOperand (tag : Byte) (buf payload : List Byte) : Except CodecError (Operand × Nat) :=
  match tag.toNat with
  | 0 => decodeWordOperand .value buf payload
  | 1 => .ok (.none, 2)
  | 2 => decodeWordOperand .int64 buf payload
  | 3 => decodeWordOperand .uint64 buf payload
  | 4 => decodeWordOperand .float buf payload
  | 5 => decodeStrOperand buf payload
  | _ => .error (.invalidEncoding buf)

/-- `decode` (R70): one record read from the start of a buffer, with the number of bytes used. The
checks run in the order of R71; bytes after the record are not read. -/
def decode (buf : List Byte) : Except CodecError (Instr × Nat) :=
  match buf with
  | op :: tag :: payload =>
    match instrOfOpcode op with
    | none => .error (.invalidEncoding buf)
    | some mk =>
      match decodeOperand tag buf payload with
      | .error e => .error e
      | .ok (o, k) => .ok (mk o, k)
  | _ => .error (.truncatedRecord buf.length)

/-- The operand tag byte and payload of an operand (R63, R64, R69). -/
def encodeOperand : Operand → Except CodecError (List Byte)
  | .value w => .ok (0#8 :: leBytes w)
  | .none => .ok [1#8]
  | .int64 i => .ok (2#8 :: leBytes i)
  | .uint64 u => .ok (3#8 :: leBytes u)
  | .float f => .ok (4#8 :: leBytes f)
  | .str s =>
    if Config.strMax < s.length then .error (.encodingTooLarge s.length)
    else .ok (5#8 :: BitVec.ofNat 8 s.length :: s)

/-- `encode` (R69): the record of an instruction, or EncodingTooLarge and no bytes. -/
def encode (i : Instr) : Except CodecError (List Byte) :=
  match encodeOperand i.operand with
  | .error e => .error e
  | .ok bytes => .ok (opcodeByte i :: bytes)

/-- The `count` bytes of a number, lowest first, starting at its byte `at`. -/
def bytesFrom (w : Nat) (start : Nat) : Nat → List Byte
  | 0 => []
  | count + 1 => BitVec.ofNat 8 (w / 2 ^ (8 * start)) :: bytesFrom w (start + 1) count

/-- The 14 bytes of a slot whose first `nbits` bits are those of `w` and whose other bits are 0,
numbered as spec/opcode_table.json numbers them: the first byte is bits 7..0. -/
def tableSlot (nbits w : Nat) : List Byte :=
  bytesFrom (w % 2 ^ nbits) 0 Config.recordCapacity

/-- The instruction the decoder reads from a table word. -/
def decodeTableWord (nbits w : Nat) : Option Instr :=
  match decode (tableSlot nbits w) with
  | .ok (i, _) => some i
  | .error _ => none

end Sys2Proof
end

