-- ==== Sys2Proof/Machine/Fetch.lean ====
section
/-! DEFINITION. Instruction fetch, the implicit halt, and the host's load and launch (20_memory.md
R47, R48; 40_engine_step.md R84, R85; 70_reset_and_hazards.md R143, R145). -/

namespace Sys2Proof.Machine

/-- What a fetch finds. -/
inductive Fetched where
  /-- `ip ≥ N` (R84). -/
  | pastEnd
  /-- The slot's bytes do not decode (R85). -/
  | illegal (bytes : List Byte)
  | instr (i : Instr)
  deriving DecidableEq, Repr

/-- The address of the first byte of a slot (log entry 4). -/
def slotAddress (i : Word) : Nat := Config.recordCapacity * i.toNat

/-- One byte of program memory; a byte the host did not write is a free value (R47, log entry
3). -/
def programByte (m : Memory) (a : Nat) : Byte :=
  match Memory.read m a with
  | some v => v
  | none => Config.unwrittenByte a

/-- `count` consecutive bytes of program memory. -/
def programBytes (m : Memory) (a : Nat) : Nat → List Byte
  | 0 => []
  | count + 1 => programByte m a :: programBytes m (a + 1) count

/-- `SlotRead(i)` (R48): the 14 bytes of slot `i`. -/
def slotRead (s : State) (i : Word) : List Byte :=
  programBytes s.program (slotAddress i) Config.recordCapacity

/-- Fetch and decode at `ip` (R84, R85). -/
def fetch (s : State) : Fetched :=
  if s.ip < s.programLength then
    match decode (slotRead s s.ip) with
    | .ok (i, _) => .instr i
    | .error _ => .illegal (slotRead s s.ip)
  else .pastEnd

/-- The implicit halt (R84): only `RS` changes. -/
def implicitHalt (s : State) : Result := .next (s.withRunState .halted)

/-- The fault of a slot that does not decode (R85). -/
def raiseIllegal (bytes : List Byte) (s : State) : Result :=
  raise .invalidEncoding (.slotBytes bytes) s

/-- The host's write of one program slot before a run (R146). -/
def storeSlot (m : Memory) (i : Word) (bytes : List Byte) : Memory :=
  Memory.writeBytes m (slotAddress i) bytes

/-- The number of slots when slot `i` is to be one of them. No slot has the index 2^64 − 1 (R47),
so there the length does not change. -/
def lengthHolding (n i : Word) : Word :=
  if i < n then n else if i = BitVec.allOnes 64 then n else i + 1#64

/-- The state with the bytes placed in the slot the next fetch reads, the run running. -/
def placeAtIp (s : State) (bytes : List Byte) : State :=
  (s.withProgram (lengthHolding s.programLength s.ip) (storeSlot s.program s.ip bytes)).withRunState
    .running

/-- The records of a program stored in the slots from `i` on (R146). -/
def storeSlots : Memory → Word → List (List Byte) → Memory
  | m, _, [] => m
  | m, i, r :: rs => storeSlots (storeSlot m i r) (i + 1#64) rs

/-- The start of a run (R145): the reset state with the launch parameters the host loaded. -/
def launch (records : List (List Byte)) (table : List (NativeKey × Nat))
    (labels : List (List Byte × Word)) (path : String) (depth : Option Nat) : State :=
  { State.reset with
    programLength := BitVec.ofNat 64 records.length
    program := storeSlots [] 0#64 records
    nativeTable := table
    labelMap := labels
    diagPath := path
    stackDepth := depth }

end Sys2Proof.Machine
end

