-- ==== Sys2Proof/Machine/Step.lean ====
section
/-! DEFINITION. The fetch-decode-execute step (40_engine_step.md R83), and the host's placement of
one instruction where the step fetches next. -/

namespace Sys2Proof.Machine

/-- `Step()` (R83). A state that is not Running has no step (R89). -/
def step (s : State) : Host.Outcome State Fault Refusal :=
  match s.runState with
  | .running =>
    match fetch s with
    | .pastEnd => implicitHalt s
    | .illegal bytes => raiseIllegal bytes s
    | .instr i => exec i s
  | .halted => .fault .runHalted
  | .faulted => .fault .runFaulted

/-- The state with the table word's instruction in the slot at `ip` (log entry 15). -/
def State.withFetchWord (s : State) (nbits w : Nat) : State := placeAtIp s (tableSlot nbits w)

end Sys2Proof.Machine
end

