-- ==== Sys2Proof/Safety.lean ====
section
/-! DEFINITION. The terms the claims use: the machine's invariant, the state a fault leaves, how a
run ends, and the classes of instructions a claim names. -/

namespace Sys2Proof.Machine

/-- `STACK_DEPTH` is a capacity (at least 1, or unbounded) and the stack is within it (10_state.md
R12). -/
def depthOk : Option Nat → List Word → Bool
  | none, _ => true
  | some n, stack => decide (0 < n) && decide (stack.length ≤ n)

/-- The values the flags register can hold: the reset value and the three outcomes of `cmp`
(43_compare.md R112). -/
def flagsLegal (f : BitVec 6) : Bool := f == 0#6 || f == 0x2C#6 || f == 0x31#6 || f == 0x1A#6

/-- What every run keeps: program memory in its canonical form, the stack within its capacity
(R12), legal flags (R112), an error record exactly when the run has faulted (R20, R132), the halt
flag only when it has halted (R125, R148), and a native table whose keys are R21's: names of at most
STR_MAX bytes or indices, each key once. -/
abbrev State.Inv (s : State) : Prop :=
  Memory.wf s.program = true ∧ depthOk s.stackDepth s.stack = true ∧ flagsLegal s.flags = true ∧
    (s.runState = .faulted ↔ s.err.isSome = true) ∧ (s.haltFlag = true → s.runState = .halted) ∧
    nativeTableWf s.nativeTable = true

/-- The state a fault of a given kind, code and information leaves (60_exceptions.md R132, R133):
`s` but for `RS` and `ERR`. The code is an argument, so that a claim states it. -/
def State.faultedBy (s : State) (k : FaultKind) (code : Nat) (info : FaultInfo) : State :=
  { s with
    runState := .faulted
    err := some { kind := k, code := code, ip := s.ip, path := s.diagPath, info := info } }

/-- A run has ended (70_reset_and_hazards.md R148). -/
def State.ended (s : State) : Bool := s.runState != .running

/-- A run is safe while it has not faulted. -/
def State.safe (s : State) : Bool := s.runState != .faulted

/-- The conditional jumps (44_control.md R116). -/
def isCondJump : Instr → Bool
  | .je _ => true
  | .jne _ => true
  | .jg _ => true
  | .jl _ => true
  | .jge _ => true
  | .jle _ => true
  | .push _ => false
  | .pop _ => false
  | .fadd _ => false
  | .fsub _ => false
  | .fmul _ => false
  | .fdiv _ => false
  | .iadd _ => false
  | .isub _ => false
  | .imul _ => false
  | .idiv _ => false
  | .inc _ => false
  | .dec _ => false
  | .swap _ => false
  | .dup _ => false
  | .cmp _ => false
  | .jmp _ => false
  | .dmp _ => false
  | .nop _ => false
  | .label _ => false
  | .native _ => false
  | .halt _ => false

/-- The words an instruction other than `native` removes from the stack and adds to it (R13). -/
def stackUse : Instr → Option (Nat × Nat)
  | .push _ => some (0, 1)
  | .pop _ => some (1, 0)
  | .fadd _ => some (2, 1)
  | .fsub _ => some (2, 1)
  | .fmul _ => some (2, 1)
  | .fdiv _ => some (2, 1)
  | .iadd _ => some (2, 1)
  | .isub _ => some (2, 1)
  | .imul _ => some (2, 1)
  | .idiv _ => some (2, 1)
  | .inc _ => some (1, 1)
  | .dec _ => some (1, 1)
  | .swap _ => some (2, 2)
  | .dup _ => some (0, 1)
  | .cmp _ => some (2, 0)
  | .jmp _ => some (0, 0)
  | .je _ => some (0, 0)
  | .jne _ => some (0, 0)
  | .jg _ => some (0, 0)
  | .jl _ => some (0, 0)
  | .jge _ => some (0, 0)
  | .jle _ => some (0, 0)
  | .dmp _ => some (0, 0)
  | .nop _ => some (0, 0)
  | .label _ => some (0, 0)
  | .native _ => none
  | .halt _ => some (0, 0)

end Sys2Proof.Machine
end

