-- ==== Sys2Proof/Certificates/Slice0/Obligations.lean ====
section
/-! DEFINITION. The statements for the provers. Each docstring names the rule of spec/ it
formalises; the terms they share stand first, in namespace Sys2Proof.Claims. -/

namespace Sys2Proof.Claims

open Sys2Proof.Machine

/-- Fewer than `n` words: StackUnderflow, code 4, with the words needed and the depth (R95, R130). -/
def NeedsWords (i : Instr) (n : Nat) : Prop :=
  ∀ s : State, s.stack.length < n →
    exec i s = .next (s.faultedBy .stackUnderflow 4 (.words n s.stack.length))

/-- Two words whose kinds are not accepted: TypeMismatch, code 5, with the kinds (R130). -/
def RejectsKinds (i : Instr) (accepted : Kind → Kind → Bool) : Prop :=
  ∀ (s : State) (a b : Word) (rest : List Word), s.stack = b :: a :: rest →
    accepted (kind a) (kind b) = false →
    exec i s = .next (s.faultedBy .typeMismatch 5 (.kinds (kind a) (kind b)))

/-- Both words are Float (R96). -/
def floatPair (ka kb : Kind) : Bool := ka == .float && kb == .float

/-- Both words have one kind among Int64, UInt64 and Byte (R102). -/
def integerPair (ka kb : Kind) : Bool :=
  ka == kb && (ka == .int64 || ka == .uint64 || ka == .byte)

/-- The word a float instruction pushes for an operation's answer (R97). -/
def pushedFloat : Option Word → Word
  | some w => w
  | none => 0x7FF8000000000000#64

/-- The rule of a float instruction that has no zero check (R95, R96). -/
def FloatRule (i : Instr) (op : FloatVal → FloatVal → Option Word) : Prop :=
  NeedsWords i 2 ∧ RejectsKinds i floatPair ∧
    ∀ (s : State) (a b : Word) (rest : List Word), s.stack = b :: a :: rest →
      kind a = .float → kind b = .float →
      exec i s = .next
        { s with
          stack := pushedFloat (op (floatValue a) (floatValue b)) :: rest
          ip := s.ip + 1#64 }

/-- The effect of an integer instruction on two words of one kind: the exact result is packed back
into that kind (R102, R43). `domain` restricts the right operand. -/
def IntegerEffect (i : Instr) (domain : Int → Prop) (f : Int → Int → Int) : Prop :=
  ∀ (s : State) (a b : Word) (rest : List Word), s.stack = b :: a :: rest →
    (∀ x y : Int, asInt64 a = some x → asInt64 b = some y → domain y →
      exec i s = .next { s with stack := packInt (f x y) :: rest, ip := s.ip + 1#64 }) ∧
    (∀ x y : Nat, asUInt64 a = some x → asUInt64 b = some y → domain y →
      exec i s = .next { s with stack := packUInt (f x y) :: rest, ip := s.ip + 1#64 }) ∧
    (∀ x y : Byte, asByte a = some x → asByte b = some y → domain y.toNat →
      exec i s = .next { s with stack := packByte (f x.toNat y.toNat) :: rest, ip := s.ip + 1#64 })

/-- The rule of an integer instruction that has no zero check (R102). -/
def IntegerRule (i : Instr) (f : Int → Int → Int) : Prop :=
  NeedsWords i 2 ∧ RejectsKinds i integerPair ∧ IntegerEffect i (fun _ => True) f

/-- The rule of `inc` and `dec` (R107, R108): `fop` with 1.0 on a Float word, `f` on an integer
word, TypeMismatch with the kind on Str and Other. -/
def StepByOneRule (i : Instr) (fop : FloatVal → FloatVal → Option Word) (f : Int → Int) : Prop :=
  NeedsWords i 1 ∧
    ∀ (s : State) (w : Word) (rest : List Word), s.stack = w :: rest →
      (kind w = .float → ∃ v, fop (floatValue w) (floatValue 0x3FF0000000000000#64) = some v ∧
        exec i s = .next { s with stack := v :: rest, ip := s.ip + 1#64 }) ∧
      (∀ x : Int, asInt64 w = some x →
        exec i s = .next { s with stack := packInt (f x) :: rest, ip := s.ip + 1#64 }) ∧
      (∀ x : Nat, asUInt64 w = some x →
        exec i s = .next { s with stack := packUInt (f x) :: rest, ip := s.ip + 1#64 }) ∧
      (∀ x : Byte, asByte w = some x →
        exec i s = .next { s with stack := packByte (f x.toNat) :: rest, ip := s.ip + 1#64 }) ∧
      (kind w = .str ∨ kind w = .other →
        exec i s = .next (s.faultedBy .typeMismatch 5 (.kind (kind w))))

/-- An operand that gives no target: InvalidOperand, code 8, with the operand (R114, R130). -/
def RejectsTarget (i : Instr) : Prop :=
  ∀ s : State, targetOf i.operand = none →
    exec i s = .next (s.faultedBy .invalidOperand 8 (.operand i.operand))

/-- The rule of a conditional jump that reads flag bit `k` (R114, R116). -/
def CondJumpRule (i : Instr) (k : Nat) : Prop :=
  RejectsTarget i ∧
    ∀ (s : State) (t : Word), targetOf i.operand = some t →
      exec i s = .next { s with ip := if s.flags.getLsbD k then t else s.ip + 1#64 }

/-- The flags `cmp` writes for a left value `x` and a right value `y` (R112). -/
def flagsOf (x y : Int) : BitVec 6 :=
  if x < y then 0x2C#6 else if x = y then 0x31#6 else 0x1A#6

/-- What `cmp` does when it does not fault: both words are consumed and the flags written. -/
def CmpGives (o : Operand) (s : State) (rest : List Word) (f : BitVec 6) : Prop :=
  exec (.cmp o) s = .next { s with stack := rest, flags := f, ip := s.ip + 1#64 }

/-- The bits of a double that is not a NaN, read as a signed magnitude. -/
def floatKey (w : Word) : Int :=
  if w.toNat < 2 ^ 63 then (w.toNat : Int) else -((w.toNat - 2 ^ 63 : Nat) : Int)

/-- The rational value of a finite double. -/
def exactValue : FloatVal → Option ℚ
  | .finite neg mag => some ((signedUnits neg mag : ℚ) / 2 ^ 1074)
  | .infinite _ => none

/-- `w` is a double nearest to `r`, and among two nearest ones the one whose significand is even. -/
def NearestEven (r : ℚ) (w : Word) : Prop :=
  ∃ v, kind w = .float ∧ exactValue (floatValue w) = some v ∧
    ∀ z u, kind z = .float → exactValue (floatValue z) = some u →
      |v - r| ≤ |u - r| ∧ (|v - r| = |u - r| → u = v ∨ w.getLsbD 0 = false)

/-- `w` is `r` rounded by roundTiesToEven (R96): the nearest double below the overflow threshold,
and from it on the infinity of `r`'s sign. -/
def RoundsTo (r : ℚ) (w : Word) : Prop :=
  if |r| < (2 ^ 54 - 1) * 2 ^ 970 then NearestEven r w
  else w = if r < 0 then 0xFFF0000000000000#64 else 0x7FF0000000000000#64

/-- A buffer decodes to the opcode `op` with operand `o`, using `k` bytes. -/
def DecodesTo (buf : List Byte) (op : Byte) (o : Operand) (k : Nat) : Prop :=
  ∃ i, decode buf = .ok (i, k) ∧ opcodeByte i = op ∧ i.operand = o

/-- The word of an infinity (R26, K2). -/
def infinityWord (neg : Bool) : Word := if neg then 0xFFF0000000000000#64 else 0x7FF0000000000000#64

/-- The word of a zero (R96). -/
def zeroWord (neg : Bool) : Word := if neg then 0x8000000000000000#64 else 0#64

/-- The eight bytes of a word, least significant first (R69). -/
def le64 (w : Word) : List Byte :=
  [0, 1, 2, 3, 4, 5, 6, 7].map fun k => BitVec.ofNat 8 (w.toNat / 256 ^ k)

/-- A boxed word as a number: the bits above the payload, then the payload (R30). -/
def IsBox (w : Word) (high payload : Nat) : Prop :=
  w.toNat = high * 2 ^ 48 + payload ∧ isCanonical w = true

end Sys2Proof.Claims

open Sys2Proof Sys2Proof.Machine Sys2Proof.Claims

/-- R144: the architectural state after reset. -/
def Obligations.ResetState : Prop :=
  State.reset.stack = [] ∧ State.reset.ip = 0#64 ∧ State.reset.haltFlag = false ∧
    State.reset.flags = 0#6 ∧ State.reset.runState = .running ∧ State.reset.out = [] ∧
    State.reset.err = none

/-- The invariant holds at reset. Its clauses about program memory, the stack's capacity and the
native table rest on the model's choice of launch parameters at reset (log entry 2). -/
def Obligations.ResetHasInvariant : Prop := State.reset.Inv

/-- Every step keeps the invariant: canonical program memory, the stack within STACK_DEPTH (R12),
legal flags (R112), an error record exactly when faulted (R20, R132), the halt flag only when halted
(R148), a native table whose keys are names of at most STR_MAX bytes or indices, each once (R21;
that the map is a list of pairs is the model's choice, log entry 8). -/
def Obligations.StepKeepsInvariant : Prop :=
  ∀ s t : State, s.Inv → step s = .next t → t.Inv

/-- Exactly the Running states have a step. That Halted and Faulted states have none is R89; that
every Running state has one rests on R83 and R86, and in a native call whose host never returns on
the model's choice (log entry 7). -/
def Obligations.ExactlyRunningStatesStep : Prop :=
  ∀ s : State, (∃ t, step s = .next t) ↔ s.runState = .running

/-- R83: a Running state with `ip ≥ N` halts, and else runs the instruction its slot decodes to, or
faults with InvalidEncoding (code 3) and the slot's bytes. -/
def Obligations.StepRunsTheDecodedInstruction : Prop :=
  ∀ s : State, s.runState = .running →
    (s.programLength ≤ s.ip → step s = .next { s with runState := .halted }) ∧
    (∀ i k, s.ip < s.programLength → decode (slotRead s s.ip) = .ok (i, k) → step s = exec i s) ∧
    (∀ e, s.ip < s.programLength → decode (slotRead s s.ip) = .error e →
      step s = .next (s.faultedBy .invalidEncoding 3 (.slotBytes (slotRead s s.ip))))

/-- R84: a step past the end sets RS to Halted and changes nothing else; with N = 0 the first step
halts. -/
def Obligations.ImplicitHaltPastTheEnd : Prop :=
  (∀ s : State, s.runState = .running → s.programLength ≤ s.ip →
    step s = .next { s with runState := .halted }) ∧
  ∀ (table : List (NativeKey × Nat)) (labels : List (List Byte × Word)) (path : String)
    (depth : Option Nat),
    step (launch [] table labels path depth) =
      .next { launch [] table labels path depth with runState := .halted }

/-- R85: a slot never decodes to TruncatedRecord, and a slot that does not decode faults with
InvalidEncoding and its 14 bytes, nothing else of the step happening. -/
def Obligations.FetchFaultsOnlyByInvalidEncoding : Prop :=
  (∀ (s : State) (i : Word) (n : Nat),
    (slotRead s i).length = 14 ∧ decode (slotRead s i) ≠ .error (.truncatedRecord n)) ∧
  ∀ (s : State) (e : CodecError), s.runState = .running → s.ip < s.programLength →
    decode (slotRead s s.ip) = .error e →
    step s = .next (s.faultedBy .invalidEncoding 3 (.slotBytes (slotRead s s.ip)))

/-- R73: the round-trip laws of the codec. -/
def Obligations.CodecRoundTrip : Prop :=
  (∀ i : Instr, i.wf = true → ∃ bytes, encode i = .ok bytes ∧ decode bytes = .ok (i, bytes.length)) ∧
  (∀ (buf : List Byte) (i : Instr) (k : Nat), decode buf = .ok (i, k) →
    encode i = .ok (buf.take k)) ∧
  ∀ i : Instr, (∃ e, encode i = .error e) ↔ ∃ s : List Byte, i.operand = .str s ∧ 11 < s.length

/-- R70 and R71: the checks of decode, in order, and what it returns; a payload is little-endian.
That InvalidEncoding carries the buffer given to decode, whatever its length, is the model's choice
(log entry 17; R130 names the 14 slot bytes). -/
def Obligations.DecodeFollowsCheckOrder : Prop :=
  (∀ buf : List Byte, buf.length < 2 → decode buf = .error (.truncatedRecord buf.length)) ∧
  ∀ (op tag : Byte) (rest : List Byte),
    (0x1A < op.toNat →
      decode (op :: tag :: rest) = .error (.invalidEncoding (op :: tag :: rest))) ∧
    (op.toNat ≤ 0x1A → 5 < tag.toNat →
      decode (op :: tag :: rest) = .error (.invalidEncoding (op :: tag :: rest))) ∧
    (op.toNat ≤ 0x1A → tag = 1#8 → DecodesTo (op :: tag :: rest) op .none 2) ∧
    (op.toNat ≤ 0x1A → tag ∈ [0#8, 2#8, 3#8, 4#8] → rest.length < 8 →
      decode (op :: tag :: rest) = .error (.truncatedRecord (rest.length + 2))) ∧
    (∀ (b0 b1 b2 b3 b4 b5 b6 b7 : Byte) (more : List Byte), op.toNat ≤ 0x1A →
      rest = b0 :: b1 :: b2 :: b3 :: b4 :: b5 :: b6 :: b7 :: more →
      ∃ x : Word,
        x.toNat = b0.toNat + 2 ^ 8 * b1.toNat + 2 ^ 16 * b2.toNat + 2 ^ 24 * b3.toNat +
          2 ^ 32 * b4.toNat + 2 ^ 40 * b5.toNat + 2 ^ 48 * b6.toNat + 2 ^ 56 * b7.toNat ∧
        (tag = 0#8 → DecodesTo (op :: tag :: rest) op (.value x) 10) ∧
        (tag = 2#8 → DecodesTo (op :: tag :: rest) op (.int64 x) 10) ∧
        (tag = 3#8 → DecodesTo (op :: tag :: rest) op (.uint64 x) 10) ∧
        (tag = 4#8 → DecodesTo (op :: tag :: rest) op (.float x) 10)) ∧
    (op.toNat ≤ 0x1A → tag = 5#8 → rest = [] →
      decode (op :: tag :: rest) = .error (.truncatedRecord 2)) ∧
    ∀ (n : Byte) (str : List Byte), op.toNat ≤ 0x1A → tag = 5#8 → rest = n :: str →
      (11 < n.toNat →
        decode (op :: tag :: rest) = .error (.invalidEncoding (op :: tag :: rest))) ∧
      (n.toNat ≤ 11 → str.length < n.toNat →
        decode (op :: tag :: rest) = .error (.truncatedRecord (str.length + 3))) ∧
      (n.toNat ≤ 11 → n.toNat ≤ str.length →
        DecodesTo (op :: tag :: rest) op (.str (str.take n.toNat)) (3 + n.toNat))

/-- R68: the 27 opcode values, each shown by its two-byte record with operand tag 1, and no buffer
that starts with another byte decodes. -/
def Obligations.OpcodeTableDecodes : Prop :=
  (∀ p ∈ [(0x00#8, Instr.push .none), (0x01#8, .pop .none), (0x02#8, .fadd .none),
      (0x03#8, .fsub .none), (0x04#8, .fmul .none), (0x05#8, .fdiv .none), (0x06#8, .iadd .none),
      (0x07#8, .isub .none), (0x08#8, .imul .none), (0x09#8, .idiv .none), (0x0A#8, .inc .none),
      (0x0B#8, .dec .none), (0x0C#8, .swap .none), (0x0D#8, .dup .none), (0x0E#8, .cmp .none),
      (0x0F#8, .jmp .none), (0x10#8, .je .none), (0x11#8, .jne .none), (0x12#8, .jg .none),
      (0x13#8, .jl .none), (0x14#8, .jge .none), (0x15#8, .jle .none), (0x16#8, .dmp .none),
      (0x17#8, .nop .none), (0x18#8, .label .none), (0x19#8, .native .none), (0x1A#8, .halt .none)],
    decode [p.1, 1#8] = .ok (p.2, 2)) ∧
  ∀ (op : Byte) (rest : List Byte) (i : Instr) (k : Nat), 0x1A < op.toNat →
    decode (op :: rest) ≠ .ok (i, k)

/-- R69: the record that encode builds, by operand variant, and its one failure, EncodingTooLarge
with the string's length (the information of its row in R130). -/
def Obligations.EncodeWritesTheRecord : Prop :=
  ∀ i : Instr,
    (i.operand = .none → encode i = .ok [opcodeByte i, 1#8]) ∧
    (∀ w, i.operand = .value w → encode i = .ok ([opcodeByte i, 0#8] ++ le64 w)) ∧
    (∀ w, i.operand = .int64 w → encode i = .ok ([opcodeByte i, 2#8] ++ le64 w)) ∧
    (∀ w, i.operand = .uint64 w → encode i = .ok ([opcodeByte i, 3#8] ++ le64 w)) ∧
    (∀ w, i.operand = .float w → encode i = .ok ([opcodeByte i, 4#8] ++ le64 w)) ∧
    (∀ str, i.operand = .str str → str.length ≤ 11 →
      encode i = .ok ([opcodeByte i, 5#8, BitVec.ofNat 8 str.length] ++ str)) ∧
    (∀ str, i.operand = .str str → 11 < str.length →
      encode i = .error (.encodingTooLarge str.length))

/-- Records the spec writes out (95_test_vectors.md T2.1) decode to the instructions it gives. -/
def Obligations.WrittenOutRecordsDecode : Prop :=
  decode [0x00, 0x02, 0x05, 0, 0, 0, 0, 0, 0, 0] = .ok (.push (.int64 5), 10) ∧
  decode [0x00, 0x04, 0, 0, 0, 0, 0, 0, 0xF0, 0x3F] =
    .ok (.push (.float 0x3FF0000000000000#64), 10) ∧
  decode [0x00, 0x00, 0x08, 0, 0, 0, 0, 0, 0xF1, 0x7F] =
    .ok (.push (.value 0x7FF1000000000008#64), 10) ∧
  decode [0x0F, 0x03, 0x08, 0, 0, 0, 0, 0, 0, 0] = .ok (.jmp (.uint64 8), 10) ∧
  decode [0x18, 0x05, 0x03, 0x45, 0x4E, 0x44] = .ok (.label (.str [0x45, 0x4E, 0x44]), 6) ∧
  decode [0x19, 0x05, 0x05, 0x70, 0x72, 0x69, 0x6E, 0x74] =
    .ok (.native (.str [0x70, 0x72, 0x69, 0x6E, 0x74]), 8) ∧
  decode [0x01, 0x01] = .ok (.pop .none, 2)

/-- R26 and R29: the kind of a word, from its numeric fields. -/
def Obligations.KindFromFields : Prop :=
  ∀ w : Word,
    kind w =
      if ¬(w.toNat / 2 ^ 52 % 2 ^ 11 = 0x7FF ∧ w.toNat % 2 ^ 52 ≠ 0) then .float
      else if w.toNat / 2 ^ 48 % 16 = 1 then .int64
      else if w.toNat / 2 ^ 48 % 16 = 2 then .uint64
      else if w.toNat / 2 ^ 48 % 16 = 3 then .str
      else if w.toNat / 2 ^ 48 % 16 = 4 then .byte
      else .other

/-- R44: the encoder and accessor laws. -/
def Obligations.TaggedValueLaws : Prop :=
  (∀ i : Word, i.toInt.natAbs < 2 ^ 48 → asInt64 (fromInt64 i) = some i.toInt) ∧
  (∀ u : Word, u.toNat < 2 ^ 48 → asUInt64 (fromUInt64 u) = some u.toNat) ∧
  (∀ b : Byte, asByte (fromByte b) = some b) ∧
  (∀ n : Nat, n < 2 ^ 48 → asStrLen (fromStrLen n) = some n) ∧
  (∀ f : Word, isReserved f = false → kind (fromFloat f) = .float ∧ fromFloat f = f ∧
    asFloat (fromFloat f) = some (floatValue f)) ∧
  (∀ i : Word, kind (fromInt64 i) = .int64) ∧ (∀ u : Word, kind (fromUInt64 u) = .uint64) ∧
  (∀ b : Byte, kind (fromByte b) = .byte) ∧ ∀ n : Nat, kind (fromStrLen n) = .str

/-- R32 to R35: the exact word of each encoder, and that it is canonical (R45). A magnitude that
truncates to 0 gives the Int64 zero with sign 0. -/
def Obligations.EncodersGiveCanonicalWords : Prop :=
  (∀ i : Word, IsBox (fromInt64 i)
    (if i.toInt < 0 ∧ i.toInt.natAbs % 2 ^ 48 ≠ 0 then 0xFFF1 else 0x7FF1)
    (i.toInt.natAbs % 2 ^ 48)) ∧
  (∀ u : Word, IsBox (fromUInt64 u) 0x7FF2 (u.toNat % 2 ^ 48)) ∧
  (∀ n : Nat, IsBox (fromStrLen n) 0x7FF3 (n % 2 ^ 48)) ∧
  ∀ b : Byte, IsBox (fromByte b) 0x7FF4 b.toNat

/-- R43 with R32, R33, R37 to R39: what the accessors read from a packed result, and that the
packers extend the encoders. -/
def Obligations.PackedResultsReadBack : Prop :=
  (∀ r : Int, asInt64 (packInt r) =
    some (if r < 0 then -((r.natAbs % 2 ^ 48 : Nat) : Int) else ((r.natAbs % 2 ^ 48 : Nat) : Int))) ∧
  (∀ r : Int, asUInt64 (packUInt r) = some (r % 2 ^ 48).toNat) ∧
  (∀ r : Int, asByte (packByte r) = some (BitVec.ofInt 8 r)) ∧
  (∀ i : Word, packInt i.toInt = fromInt64 i) ∧ ∀ u : Word, packUInt u.toNat = fromUInt64 u

/-- R45, R109: the word that an integer instruction, inc or dec leaves on top, where it changes the
stack, is canonical; no Int64 result is the non-canonical negative zero. -/
def Obligations.IntegerResultsAreCanonical : Prop :=
  ∀ (i : Instr) (o : Operand) (s t : State) (w : Word) (rest : List Word),
    i ∈ [Instr.iadd o, .isub o, .imul o, .idiv o, .inc o, .dec o] → exec i s = .next t →
    t.stack ≠ s.stack → t.stack = w :: rest → isCanonical w = true

/-- R75, R76, R77 with R41: the operand multiplexer, by variant. -/
def Obligations.OperandMultiplexer : Prop :=
  (∀ w : Word, valueOf (.value w) = some w) ∧
  (∀ i : Word, valueOf (.int64 i) = some (fromInt64 i)) ∧
  (∀ u : Word, valueOf (.uint64 u) = some (fromUInt64 u)) ∧
  (∀ f : Word, valueOf (.float f) = some f) ∧
  (∀ s : List Byte, valueOf (.str s) = some (fromStrLen s.length)) ∧ valueOf .none = none ∧
  (∀ u : Word, targetOf (.uint64 u) = some u ∧ nativeKeyOf (.uint64 u) = some (.index u)) ∧
  (∀ i : Word, i.toNat < 2 ^ 63 →
    targetOf (.int64 i) = some i ∧ nativeKeyOf (.int64 i) = some (.index i)) ∧
  (∀ i : Word, 2 ^ 63 ≤ i.toNat → targetOf (.int64 i) = none ∧ nativeKeyOf (.int64 i) = none) ∧
  (∀ (w : Word) (n : Nat), asUInt64 w = some n →
    targetOf (.value w) = some (BitVec.ofNat 64 n) ∧
      nativeKeyOf (.value w) = some (.index (BitVec.ofNat 64 n))) ∧
  (∀ (w : Word) (n : Nat), asInt64 w = some (n : Int) →
    targetOf (.value w) = some (BitVec.ofNat 64 n) ∧
      nativeKeyOf (.value w) = some (.index (BitVec.ofNat 64 n))) ∧
  (∀ (w : Word) (x : Int), asInt64 w = some x → x < 0 →
    targetOf (.value w) = none ∧ nativeKeyOf (.value w) = none) ∧
  (∀ w : Word, kind w ≠ .int64 → kind w ≠ .uint64 →
    targetOf (.value w) = none ∧ nativeKeyOf (.value w) = none) ∧
  (∀ f : Word, targetOf (.float f) = none ∧ nativeKeyOf (.float f) = none) ∧
  (∀ s : List Byte, targetOf (.str s) = none ∧ nativeKeyOf (.str s) = some (.name s)) ∧
  targetOf .none = none ∧ nativeKeyOf .none = none

/-- R17: the three operations of the flags register unit, each on its own bit. -/
def Obligations.FlagOperationsAreIndependent : Prop :=
  ∀ (j k : Flag) (f : BitVec 6),
    testFlag k (setFlag k f) = true ∧ testFlag k (resetFlag k f) = false ∧
      (j ≠ k → testFlag j (setFlag k f) = testFlag j f ∧
        testFlag j (resetFlag k f) = testFlag j f)

/-- R91: push. -/
def Obligations.PushRule : Prop :=
  ∀ (o : Operand) (s : State),
    (valueOf o = none →
      exec (.push o) s = .next (s.faultedBy .invalidOperand 8 (.operand o))) ∧
    (∀ v, valueOf o = some v → s.stackDepth = some s.stack.length →
      exec (.push o) s = .next (s.faultedBy .stackOverflow 9 (.depth s.stack.length))) ∧
    (∀ v, valueOf o = some v → s.stackDepth ≠ some s.stack.length →
      exec (.push o) s = .next { s with stack := v :: s.stack, ip := s.ip + 1#64 })

/-- R92: pop. -/
def Obligations.PopRule : Prop :=
  ∀ o : Operand, NeedsWords (.pop o) 1 ∧
    ∀ (s : State) (w : Word) (rest : List Word), s.stack = w :: rest →
      exec (.pop o) s = .next { s with stack := rest, ip := s.ip + 1#64 }

/-- R93: swap. -/
def Obligations.SwapRule : Prop :=
  ∀ o : Operand, NeedsWords (.swap o) 2 ∧
    ∀ (s : State) (a b : Word) (rest : List Word), s.stack = b :: a :: rest →
      exec (.swap o) s = .next { s with stack := a :: b :: rest, ip := s.ip + 1#64 }

/-- R94: dup. -/
def Obligations.DupRule : Prop :=
  ∀ o : Operand, NeedsWords (.dup o) 1 ∧
    ∀ (s : State) (w : Word) (rest : List Word), s.stack = w :: rest →
      (s.stackDepth = some s.stack.length →
        exec (.dup o) s = .next (s.faultedBy .stackOverflow 9 (.depth s.stack.length))) ∧
      (s.stackDepth ≠ some s.stack.length →
        exec (.dup o) s = .next { s with stack := w :: w :: rest, ip := s.ip + 1#64 })

/-- R98: fadd. -/
def Obligations.FaddRule : Prop := ∀ o : Operand, FloatRule (.fadd o) fadd64

/-- R99: fsub. -/
def Obligations.FsubRule : Prop := ∀ o : Operand, FloatRule (.fsub o) fsub64

/-- R100: fmul. -/
def Obligations.FmulRule : Prop := ∀ o : Operand, FloatRule (.fmul o) fmul64

/-- R101: fdiv; a divisor of +0.0 (all bits 0) or −0.0 (only bit 63 set) is DivisionByZero, code
6. -/
def Obligations.FdivRule : Prop :=
  ∀ o : Operand, NeedsWords (.fdiv o) 2 ∧ RejectsKinds (.fdiv o) floatPair ∧
    ∀ (s : State) (a b : Word) (rest : List Word), s.stack = b :: a :: rest → kind a = .float →
      (b = 0#64 ∨ b = 0x8000000000000000#64 →
        exec (.fdiv o) s = .next (s.faultedBy .divisionByZero 6 .nothing)) ∧
      (kind b = .float → b ≠ 0#64 → b ≠ 0x8000000000000000#64 →
        exec (.fdiv o) s = .next
          { s with
            stack := pushedFloat (fdiv64 (floatValue a) (floatValue b)) :: rest
            ip := s.ip + 1#64 })

/-- R97: a NaN arises only from an IEEE invalid operation, and CANONICAL_NAN has kind Other. -/
def Obligations.NaNOnlyFromInvalidOperations : Prop :=
  (∀ x y : FloatVal, fadd64 x y = none ↔ ∃ g, x = .infinite g ∧ y = .infinite (!g)) ∧
  (∀ x y : FloatVal, fsub64 x y = none ↔ ∃ g, x = .infinite g ∧ y = .infinite g) ∧
  (∀ x y : FloatVal, fmul64 x y = none ↔
    (∃ g h, x = .finite g 0 ∧ y = .infinite h) ∨ ∃ g h, x = .infinite g ∧ y = .finite h 0) ∧
  (∀ x y : FloatVal, floatIsZero y = false →
    (fdiv64 x y = none ↔ ∃ g h, x = .infinite g ∧ y = .infinite h)) ∧
  floatResult none = 0x7FF8000000000000#64 ∧ kind 0x7FF8000000000000#64 = .other

/-- R96: the signs of zero sums, differences, products and quotients. -/
def Obligations.FloatSignRules : Prop :=
  (∀ (g : Bool) (m : Nat),
    fadd64 (.finite g m) (.finite (!g) m) = some 0#64 ∧
      fsub64 (.finite g m) (.finite g m) = some 0#64) ∧
  fsub64 (.finite true 0) (.finite false 0) = some 0x8000000000000000#64 ∧
  fsub64 (.finite false 0) (.finite true 0) = some 0#64 ∧
  fadd64 (.finite true 0) (.finite true 0) = some 0x8000000000000000#64 ∧
  (∀ g : Bool, fadd64 (.finite false 0) (.finite g 0) = some 0#64 ∧
    fadd64 (.finite g 0) (.finite false 0) = some 0#64) ∧
  ∀ a b w : Word, kind a = .float → kind b = .float →
    (fmul64 (floatValue a) (floatValue b) = some w → w.getLsbD 63 = (a.getLsbD 63 ^^ b.getLsbD 63)) ∧
    (fdiv64 (floatValue a) (floatValue b) = some w → w.getLsbD 63 = (a.getLsbD 63 ^^ b.getLsbD 63))

/-- R96 and K4 (log entry 10): the results on infinite operands, but for the invalid operations of
R97 and the zero divisors of R101. -/
def Obligations.FloatInfinities : Prop :=
  (∀ g : Bool, kind (infinityWord g) = .float ∧ floatValue (infinityWord g) = .infinite g) ∧
  (∀ (g : Bool) (v : FloatVal),
    (v ≠ .infinite (!g) → fadd64 (.infinite g) v = some (infinityWord g) ∧
      fadd64 v (.infinite g) = some (infinityWord g)) ∧
    (v ≠ .infinite g → fsub64 (.infinite g) v = some (infinityWord g) ∧
      fsub64 v (.infinite g) = some (infinityWord (!g)))) ∧
  (∀ g h : Bool, fmul64 (.infinite g) (.infinite h) = some (infinityWord (g ^^ h))) ∧
  ∀ (g h : Bool) (m : Nat),
    (m ≠ 0 → fmul64 (.infinite g) (.finite h m) = some (infinityWord (g ^^ h)) ∧
      fmul64 (.finite g m) (.infinite h) = some (infinityWord (g ^^ h)) ∧
      fdiv64 (.infinite g) (.finite h m) = some (infinityWord (g ^^ h))) ∧
    fdiv64 (.finite g m) (.infinite h) = some (zeroWord (g ^^ h))

/-- R96: on finite operands the four operations give the exact rational result rounded to the
nearest double, ties to even, with overflow to a signed infinity and subnormals kept. -/
def Obligations.FloatResultsAreNearestEven : Prop :=
  ∀ (x y : FloatVal) (a b : ℚ), exactValue x = some a → exactValue y = some b →
    (∃ w, fadd64 x y = some w ∧ RoundsTo (a + b) w) ∧
    (∃ w, fsub64 x y = some w ∧ RoundsTo (a - b) w) ∧
    (∃ w, fmul64 x y = some w ∧ RoundsTo (a * b) w) ∧
    (b ≠ 0 → ∃ w, fdiv64 x y = some w ∧ RoundsTo (a / b) w)

/-- R103: iadd. -/
def Obligations.IaddRule : Prop := ∀ o : Operand, IntegerRule (.iadd o) fun x y => x + y

/-- R104: isub. -/
def Obligations.IsubRule : Prop := ∀ o : Operand, IntegerRule (.isub o) fun x y => x - y

/-- R105: imul. -/
def Obligations.ImulRule : Prop := ∀ o : Operand, IntegerRule (.imul o) fun x y => x * y

/-- R106: idiv, truncated toward zero; a divisor of value 0 is DivisionByZero, code 6. -/
def Obligations.IdivRule : Prop :=
  ∀ o : Operand, NeedsWords (.idiv o) 2 ∧ RejectsKinds (.idiv o) integerPair ∧
    IntegerEffect (.idiv o) (fun y => y ≠ 0) (fun x y => x.tdiv y) ∧
    ∀ (s : State) (a b : Word) (rest : List Word), s.stack = b :: a :: rest → kind a = kind b →
      (asInt64 b = some 0 ∨ asUInt64 b = some 0 ∨ asByte b = some 0#8) →
      exec (.idiv o) s = .next (s.faultedBy .divisionByZero 6 .nothing)

/-- R107: inc. -/
def Obligations.IncRule : Prop := ∀ o : Operand, StepByOneRule (.inc o) fadd64 fun x => x + 1

/-- R108: dec. -/
def Obligations.DecRule : Prop := ∀ o : Operand, StepByOneRule (.dec o) fsub64 fun x => x - 1

/-- R110 and R112: cmp, on each comparable kind and on every other pair. A Float's place in the
IEEE order is `floatOrder`; `CmpOrdersFloatsByTheirBits` says it without that function. -/
def Obligations.CmpRule : Prop :=
  ∀ o : Operand, NeedsWords (.cmp o) 2 ∧
    RejectsKinds (.cmp o) (fun ka kb => floatPair ka kb || integerPair ka kb) ∧
    ∀ (s : State) (a b : Word) (rest : List Word), s.stack = b :: a :: rest →
      (∀ x y : Int, asInt64 a = some x → asInt64 b = some y → CmpGives o s rest (flagsOf x y)) ∧
      (∀ x y : Nat, asUInt64 a = some x → asUInt64 b = some y → CmpGives o s rest (flagsOf x y)) ∧
      (∀ x y : Byte, asByte a = some x → asByte b = some y →
        CmpGives o s rest (flagsOf x.toNat y.toNat)) ∧
      (kind a = .float → kind b = .float →
        CmpGives o s rest (flagsOf (floatOrder (floatValue a)) (floatOrder (floatValue b))))

/-- R111 on Float words: the IEEE order is the order of the bits as signed magnitudes, the two
zeros equal, an infinity beyond every finite double. -/
def Obligations.CmpOrdersFloatsByTheirBits : Prop :=
  ∀ (o : Operand) (s : State) (a b : Word) (rest : List Word), s.stack = b :: a :: rest →
    kind a = .float → kind b = .float → CmpGives o s rest (flagsOf (floatKey a) (floatKey b))

/-- R113: after a cmp that consumed its operands exactly one of Equal, Greater and Less holds, and
the other three bits are their combinations. -/
def Obligations.ComparisonConsistency : Prop :=
  ∀ (o : Operand) (s t : State), exec (.cmp o) s = .next t → t.stack ≠ s.stack →
    [testFlag .equal t.flags, testFlag .greater t.flags, testFlag .less t.flags].count true = 1 ∧
      testFlag .notEqual t.flags = !testFlag .equal t.flags ∧
      testFlag .greaterOrEqual t.flags = (testFlag .greater t.flags || testFlag .equal t.flags) ∧
      testFlag .lessOrEqual t.flags = (testFlag .less t.flags || testFlag .equal t.flags)

/-- R115: jmp. -/
def Obligations.JmpRule : Prop :=
  ∀ o : Operand, RejectsTarget (.jmp o) ∧
    ∀ (s : State) (t : Word), targetOf o = some t → exec (.jmp o) s = .next { s with ip := t }

/-- R116 to R122: the six conditional jumps and the flag bit each reads. -/
def Obligations.ConditionalJumpRules : Prop :=
  ∀ o : Operand,
    CondJumpRule (.je o) 0 ∧ CondJumpRule (.jne o) 3 ∧ CondJumpRule (.jg o) 1 ∧
      CondJumpRule (.jl o) 2 ∧ CondJumpRule (.jge o) 4 ∧ CondJumpRule (.jle o) 5

/-- R123 and R124: nop and label only advance. -/
def Obligations.NopAndLabelOnlyAdvance : Prop :=
  ∀ (o : Operand) (s : State),
    exec (.nop o) s = .next { s with ip := s.ip + 1#64 } ∧
      exec (.label o) s = .next { s with ip := s.ip + 1#64 }

/-- R125: halt. -/
def Obligations.HaltRule : Prop :=
  ∀ (o : Operand) (s : State),
    exec (.halt o) s =
      .next { s with haltFlag := true, ip := s.ip + 1#64, runState := .halted }

/-- R127: dmp. -/
def Obligations.DmpRule : Prop :=
  ∀ o : Operand, NeedsWords (.dmp o) 1 ∧
    ∀ (s : State) (w : Word) (rest : List Word), s.stack = w :: rest →
      exec (.dmp o) s = .next { s with out := s.out ++ [w], ip := s.ip + 1#64 }

/-- R128, its first two checks: InvalidOperand (code 8), then UnknownNative (code 7). -/
def Obligations.NativeRefusesBadKeys : Prop :=
  ∀ (o : Operand) (s : State),
    (nativeKeyOf o = none →
      exec (.native o) s = .next (s.faultedBy .invalidOperand 8 (.operand o))) ∧
    (∀ key, nativeKeyOf o = some key → (∀ p ∈ s.nativeTable, p.1 ≠ key) →
      exec (.native o) s = .next (s.faultedBy .unknownNative 7 (.key key)))

/-- R128 with R129: a key in the table always answers a next state, for every host. The answer is
the free value `Config.hostAnswer` (log entry 5): a returned stack, held to STACK_DEPTH words (log
entry 6), replaces the stack; Fail is NativeFailed, code 10; a callback that never returns leaves
the state as it is (log entry 7). -/
def Obligations.NativeFollowsTheHostAnswer : Prop :=
  ∀ (o : Operand) (s : State) (key : NativeKey) (c : Nat), nativeKeyOf o = some key →
    lookupNative s.nativeTable key = some c →
    exec (.native o) s = .next
      (match Config.hostAnswer s.hostDraw c s.stack with
        | .ret stack =>
          { s with
            stack := (match s.stackDepth with
              | none => stack
              | some n => stack.take n)
            ip := s.ip + 1#64
            hostDraw := s.hostDraw + 1 }
        | .fail => s.faultedBy .nativeFailed 10 (.key key)
        | .never => s)

/-- R129: what a native call does to the stack depends only on the stack, the table, the capacity
and the host (`hostDraw`, log entry 5), not on ip, H, F, RS, OUT, ERR or the program. -/
def Obligations.NativeSeesOnlyTheStack : Prop :=
  ∀ (o : Operand) (s s' t t' : State), s.stack = s'.stack → s.nativeTable = s'.nativeTable →
    s.stackDepth = s'.stackDepth → s.hostDraw = s'.hostDraw → exec (.native o) s = .next t →
    exec (.native o) s' = .next t' → t.stack = t'.stack

/-- R132: a step that ends Faulted has written RS and ERR and nothing else. -/
def Obligations.FaultsArePrecise : Prop :=
  ∀ s t : State, step s = .next t → t.runState = .faulted →
    ∃ (k : FaultKind) (info : FaultInfo), t = s.faultedBy k (faultCode k) info

/-- R87: a fetched instruction that completes advances ip by exactly 1, without wrapping, unless it
is a jump, whose new ip is then its target or the next index. A native call whose host never
returns does not complete and leaves the state as it is (log entry 7). -/
def Obligations.IpAdvancesByOneUnlessJumping : Prop :=
  ∀ (s t : State) (i : Instr), s.runState = .running → fetch s = .instr i → exec i s = .next t →
    t.runState ≠ .faulted →
    t.ip.toNat = s.ip.toNat + 1 ∨
      (((∃ o, i = .jmp o) ∨ isCondJump i = true) ∧ targetOf i.operand = some t.ip) ∨
      ((∃ o, i = .native o) ∧ t = s)

/-- The frame of every instruction: every program byte and every launch parameter is unchanged; the
flags change only by cmp (R16), H only by halt (R15), OUT only by dmp (R19), the model's draw count
only by native; ERR only by a fault and RS only by a fault or halt (R88). -/
def Obligations.InstructionFrame : Prop :=
  ∀ (i : Instr) (s t : State), exec i s = .next t →
    (∀ a : Nat, programByte t.program a = programByte s.program a) ∧
    t.programLength = s.programLength ∧ t.nativeTable = s.nativeTable ∧
    t.labelMap = s.labelMap ∧ t.diagPath = s.diagPath ∧ t.stackDepth = s.stackDepth ∧
    (t.flags ≠ s.flags → ∃ o, i = .cmp o) ∧ (t.haltFlag ≠ s.haltFlag → ∃ o, i = .halt o) ∧
    (t.out ≠ s.out → ∃ o, i = .dmp o) ∧ (t.hostDraw ≠ s.hostDraw → ∃ o, i = .native o) ∧
    (t.err ≠ s.err → t.runState = .faulted) ∧
    (t.runState ≠ s.runState → t.runState = .faulted ∨ ∃ o, i = .halt o)

/-- R13: an instruction other than native removes and adds the words of R13's table and leaves the
rest of the stack, or takes a fault and leaves all of it. -/
def Obligations.OnlyTheTopOfTheStackMoves : Prop :=
  ∀ (i : Instr) (s t : State) (removed added : Nat), stackUse i = some (removed, added) →
    exec i s = .next t →
    (∃ (k : FaultKind) (info : FaultInfo), t = s.faultedBy k (faultCode k) info) ∨
      (removed ≤ s.stack.length ∧
        ∃ new : List Word, new.length = added ∧ t.stack = new ++ s.stack.drop removed)

/-- R16: the flags are read only by the conditional jumps. Another instruction, whatever the flags
hold, answers the same state with the flags it was given, but a cmp that completes (it consumes two
words), which answers the same state and flags. The two runs of a native share the host (R129): one
answer for one draw, callback and stack is the model's choice (log entry 5). -/
def Obligations.FlagsReadOnlyByConditionalJumps : Prop :=
  ∀ (i : Instr) (s t : State) (f : BitVec 6), isCondJump i = false → exec i s = .next t →
    ((∀ o, i ≠ .cmp o) ∨ t.stack = s.stack →
      exec i { s with flags := f } = .next { t with flags := f }) ∧
    (∀ o, i = .cmp o → t.stack ≠ s.stack → exec i { s with flags := f } = .next t)

/-- R22: no rule reads LABEL_MAP. The two steps share the host and the bytes it did not write: that
a native's answer is one for one draw, callback and stack, so does not depend on LABEL_MAP, which
R129 does not list among what a callback may not read, is the model's choice (log entry 5), and so
is one value for one unwritten program byte (log entry 3). -/
def Obligations.LabelMapIsNeverRead : Prop :=
  ∀ (s t : State) (m : List (List Byte × Word)), step s = .next t →
    step { s with labelMap := m } = .next { t with labelMap := m }

/-- R147: program memory, NATIVE_TABLE, LABEL_MAP and DIAG_PATH do not change in a step. -/
def Obligations.LaunchParametersAreFixed : Prop :=
  ∀ s t : State, step s = .next t →
    (∀ a : Nat, programByte t.program a = programByte s.program a) ∧
    (∀ i : Word, slotRead t i = slotRead s i) ∧ t.program = s.program ∧
    t.programLength = s.programLength ∧ t.nativeTable = s.nativeTable ∧
    t.labelMap = s.labelMap ∧ t.diagPath = s.diagPath

/-- R19: a step appends to OUT only by a dmp, and then the top word; OUT is empty at reset. -/
def Obligations.OutputGrowsOnlyByDmp : Prop :=
  State.reset.out = [] ∧
  ∀ s t : State, step s = .next t →
    t.out = s.out ∨
      ∃ (o : Operand) (w : Word), fetch s = .instr (.dmp o) ∧ s.stack.head? = some w ∧
        t.out = s.out ++ [w]

/-- R15: H is written to 1 only by halt, is never written to 0 during a run, and is 0 at reset. -/
def Obligations.HaltFlagOnlyByHalt : Prop :=
  State.reset.haltFlag = false ∧
  ∀ s t : State, step s = .next t →
    t.haltFlag = s.haltFlag ∨ (t.haltFlag = true ∧ ∃ o, fetch s = .instr (.halt o))

/-- The host's placement (log entry 15): the instruction the decoder reads from a table word is the
one the next step runs, and the slot holds the placed bytes. The index 2^64 − 1 has no slot
(R47). -/
def Obligations.PlacedInstructionIsStepped : Prop :=
  ∀ (s : State) (nbits w : Nat) (i : Instr), s.ip ≠ BitVec.allOnes 64 →
    decodeTableWord nbits w = some i →
    slotRead (s.withFetchWord nbits w) s.ip = tableSlot nbits w ∧
      step (s.withFetchWord nbits w) = exec i (s.withFetchWord nbits w)

/-- R145 with R47: after a launch the run is Running at index 0, and slot `i` holds the `i`-th
record the host loaded, left-aligned. -/
def Obligations.LaunchedRecordsStandInTheirSlots : Prop :=
  ∀ (records : List (List Byte)) (table : List (NativeKey × Nat)) (labels : List (List Byte × Word))
    (path : String) (depth : Option Nat), records.length < 2 ^ 64 →
    (∀ r ∈ records, r.length ≤ 14) →
    (launch records table labels path depth).ip = 0#64 ∧
    (launch records table labels path depth).runState = .running ∧
    (launch records table labels path depth).programLength.toNat = records.length ∧
    ∀ (i : Nat) (h : i < records.length),
      (slotRead (launch records table labels path depth) (BitVec.ofNat 64 i)).take
        records[i].length = records[i]
end

