-- ==== Sys2Proof/Laws/State.lean ====
section
/-! SUPPORT. One lemma per field of State per named update, so that no proof unfolds a record
update. -/

namespace Sys2Proof.Machine

section withStack

variable (s : State) (v : List Word)

@[simp] theorem State.withStack_stack : (s.withStack v).stack = v := rfl
@[simp] theorem State.withStack_ip : (s.withStack v).ip = s.ip := rfl
@[simp] theorem State.withStack_haltFlag : (s.withStack v).haltFlag = s.haltFlag := rfl
@[simp] theorem State.withStack_flags : (s.withStack v).flags = s.flags := rfl
@[simp] theorem State.withStack_runState : (s.withStack v).runState = s.runState := rfl
@[simp] theorem State.withStack_out : (s.withStack v).out = s.out := rfl
@[simp] theorem State.withStack_err : (s.withStack v).err = s.err := rfl
@[simp] theorem State.withStack_programLength : (s.withStack v).programLength = s.programLength := rfl
@[simp] theorem State.withStack_program : (s.withStack v).program = s.program := rfl
@[simp] theorem State.withStack_nativeTable : (s.withStack v).nativeTable = s.nativeTable := rfl
@[simp] theorem State.withStack_labelMap : (s.withStack v).labelMap = s.labelMap := rfl
@[simp] theorem State.withStack_diagPath : (s.withStack v).diagPath = s.diagPath := rfl
@[simp] theorem State.withStack_stackDepth : (s.withStack v).stackDepth = s.stackDepth := rfl
@[simp] theorem State.withStack_hostDraw : (s.withStack v).hostDraw = s.hostDraw := rfl

end withStack

section withIp

variable (s : State) (v : Word)

@[simp] theorem State.withIp_stack : (s.withIp v).stack = s.stack := rfl
@[simp] theorem State.withIp_ip : (s.withIp v).ip = v := rfl
@[simp] theorem State.withIp_haltFlag : (s.withIp v).haltFlag = s.haltFlag := rfl
@[simp] theorem State.withIp_flags : (s.withIp v).flags = s.flags := rfl
@[simp] theorem State.withIp_runState : (s.withIp v).runState = s.runState := rfl
@[simp] theorem State.withIp_out : (s.withIp v).out = s.out := rfl
@[simp] theorem State.withIp_err : (s.withIp v).err = s.err := rfl
@[simp] theorem State.withIp_programLength : (s.withIp v).programLength = s.programLength := rfl
@[simp] theorem State.withIp_program : (s.withIp v).program = s.program := rfl
@[simp] theorem State.withIp_nativeTable : (s.withIp v).nativeTable = s.nativeTable := rfl
@[simp] theorem State.withIp_labelMap : (s.withIp v).labelMap = s.labelMap := rfl
@[simp] theorem State.withIp_diagPath : (s.withIp v).diagPath = s.diagPath := rfl
@[simp] theorem State.withIp_stackDepth : (s.withIp v).stackDepth = s.stackDepth := rfl
@[simp] theorem State.withIp_hostDraw : (s.withIp v).hostDraw = s.hostDraw := rfl

end withIp

section withHaltFlag

variable (s : State) (v : Bool)

@[simp] theorem State.withHaltFlag_stack : (s.withHaltFlag v).stack = s.stack := rfl
@[simp] theorem State.withHaltFlag_ip : (s.withHaltFlag v).ip = s.ip := rfl
@[simp] theorem State.withHaltFlag_haltFlag : (s.withHaltFlag v).haltFlag = v := rfl
@[simp] theorem State.withHaltFlag_flags : (s.withHaltFlag v).flags = s.flags := rfl
@[simp] theorem State.withHaltFlag_runState : (s.withHaltFlag v).runState = s.runState := rfl
@[simp] theorem State.withHaltFlag_out : (s.withHaltFlag v).out = s.out := rfl
@[simp] theorem State.withHaltFlag_err : (s.withHaltFlag v).err = s.err := rfl
@[simp] theorem State.withHaltFlag_programLength : (s.withHaltFlag v).programLength = s.programLength := rfl
@[simp] theorem State.withHaltFlag_program : (s.withHaltFlag v).program = s.program := rfl
@[simp] theorem State.withHaltFlag_nativeTable : (s.withHaltFlag v).nativeTable = s.nativeTable := rfl
@[simp] theorem State.withHaltFlag_labelMap : (s.withHaltFlag v).labelMap = s.labelMap := rfl
@[simp] theorem State.withHaltFlag_diagPath : (s.withHaltFlag v).diagPath = s.diagPath := rfl
@[simp] theorem State.withHaltFlag_stackDepth : (s.withHaltFlag v).stackDepth = s.stackDepth := rfl
@[simp] theorem State.withHaltFlag_hostDraw : (s.withHaltFlag v).hostDraw = s.hostDraw := rfl

end withHaltFlag

section withFlags

variable (s : State) (v : BitVec 6)

@[simp] theorem State.withFlags_stack : (s.withFlags v).stack = s.stack := rfl
@[simp] theorem State.withFlags_ip : (s.withFlags v).ip = s.ip := rfl
@[simp] theorem State.withFlags_haltFlag : (s.withFlags v).haltFlag = s.haltFlag := rfl
@[simp] theorem State.withFlags_flags : (s.withFlags v).flags = v := rfl
@[simp] theorem State.withFlags_runState : (s.withFlags v).runState = s.runState := rfl
@[simp] theorem State.withFlags_out : (s.withFlags v).out = s.out := rfl
@[simp] theorem State.withFlags_err : (s.withFlags v).err = s.err := rfl
@[simp] theorem State.withFlags_programLength : (s.withFlags v).programLength = s.programLength := rfl
@[simp] theorem State.withFlags_program : (s.withFlags v).program = s.program := rfl
@[simp] theorem State.withFlags_nativeTable : (s.withFlags v).nativeTable = s.nativeTable := rfl
@[simp] theorem State.withFlags_labelMap : (s.withFlags v).labelMap = s.labelMap := rfl
@[simp] theorem State.withFlags_diagPath : (s.withFlags v).diagPath = s.diagPath := rfl
@[simp] theorem State.withFlags_stackDepth : (s.withFlags v).stackDepth = s.stackDepth := rfl
@[simp] theorem State.withFlags_hostDraw : (s.withFlags v).hostDraw = s.hostDraw := rfl

end withFlags

section withRunState

variable (s : State) (v : RunState)

@[simp] theorem State.withRunState_stack : (s.withRunState v).stack = s.stack := rfl
@[simp] theorem State.withRunState_ip : (s.withRunState v).ip = s.ip := rfl
@[simp] theorem State.withRunState_haltFlag : (s.withRunState v).haltFlag = s.haltFlag := rfl
@[simp] theorem State.withRunState_flags : (s.withRunState v).flags = s.flags := rfl
@[simp] theorem State.withRunState_runState : (s.withRunState v).runState = v := rfl
@[simp] theorem State.withRunState_out : (s.withRunState v).out = s.out := rfl
@[simp] theorem State.withRunState_err : (s.withRunState v).err = s.err := rfl
@[simp] theorem State.withRunState_programLength : (s.withRunState v).programLength = s.programLength := rfl
@[simp] theorem State.withRunState_program : (s.withRunState v).program = s.program := rfl
@[simp] theorem State.withRunState_nativeTable : (s.withRunState v).nativeTable = s.nativeTable := rfl
@[simp] theorem State.withRunState_labelMap : (s.withRunState v).labelMap = s.labelMap := rfl
@[simp] theorem State.withRunState_diagPath : (s.withRunState v).diagPath = s.diagPath := rfl
@[simp] theorem State.withRunState_stackDepth : (s.withRunState v).stackDepth = s.stackDepth := rfl
@[simp] theorem State.withRunState_hostDraw : (s.withRunState v).hostDraw = s.hostDraw := rfl

end withRunState

section withOut

variable (s : State) (v : List Word)

@[simp] theorem State.withOut_stack : (s.withOut v).stack = s.stack := rfl
@[simp] theorem State.withOut_ip : (s.withOut v).ip = s.ip := rfl
@[simp] theorem State.withOut_haltFlag : (s.withOut v).haltFlag = s.haltFlag := rfl
@[simp] theorem State.withOut_flags : (s.withOut v).flags = s.flags := rfl
@[simp] theorem State.withOut_runState : (s.withOut v).runState = s.runState := rfl
@[simp] theorem State.withOut_out : (s.withOut v).out = v := rfl
@[simp] theorem State.withOut_err : (s.withOut v).err = s.err := rfl
@[simp] theorem State.withOut_programLength : (s.withOut v).programLength = s.programLength := rfl
@[simp] theorem State.withOut_program : (s.withOut v).program = s.program := rfl
@[simp] theorem State.withOut_nativeTable : (s.withOut v).nativeTable = s.nativeTable := rfl
@[simp] theorem State.withOut_labelMap : (s.withOut v).labelMap = s.labelMap := rfl
@[simp] theorem State.withOut_diagPath : (s.withOut v).diagPath = s.diagPath := rfl
@[simp] theorem State.withOut_stackDepth : (s.withOut v).stackDepth = s.stackDepth := rfl
@[simp] theorem State.withOut_hostDraw : (s.withOut v).hostDraw = s.hostDraw := rfl

end withOut

section withErr

variable (s : State) (v : Option ErrorRecord)

@[simp] theorem State.withErr_stack : (s.withErr v).stack = s.stack := rfl
@[simp] theorem State.withErr_ip : (s.withErr v).ip = s.ip := rfl
@[simp] theorem State.withErr_haltFlag : (s.withErr v).haltFlag = s.haltFlag := rfl
@[simp] theorem State.withErr_flags : (s.withErr v).flags = s.flags := rfl
@[simp] theorem State.withErr_runState : (s.withErr v).runState = s.runState := rfl
@[simp] theorem State.withErr_out : (s.withErr v).out = s.out := rfl
@[simp] theorem State.withErr_err : (s.withErr v).err = v := rfl
@[simp] theorem State.withErr_programLength : (s.withErr v).programLength = s.programLength := rfl
@[simp] theorem State.withErr_program : (s.withErr v).program = s.program := rfl
@[simp] theorem State.withErr_nativeTable : (s.withErr v).nativeTable = s.nativeTable := rfl
@[simp] theorem State.withErr_labelMap : (s.withErr v).labelMap = s.labelMap := rfl
@[simp] theorem State.withErr_diagPath : (s.withErr v).diagPath = s.diagPath := rfl
@[simp] theorem State.withErr_stackDepth : (s.withErr v).stackDepth = s.stackDepth := rfl
@[simp] theorem State.withErr_hostDraw : (s.withErr v).hostDraw = s.hostDraw := rfl

end withErr

section withProgram

variable (s : State) (n : Word) (p : Memory)

@[simp] theorem State.withProgram_stack : (s.withProgram n p).stack = s.stack := rfl
@[simp] theorem State.withProgram_ip : (s.withProgram n p).ip = s.ip := rfl
@[simp] theorem State.withProgram_haltFlag : (s.withProgram n p).haltFlag = s.haltFlag := rfl
@[simp] theorem State.withProgram_flags : (s.withProgram n p).flags = s.flags := rfl
@[simp] theorem State.withProgram_runState : (s.withProgram n p).runState = s.runState := rfl
@[simp] theorem State.withProgram_out : (s.withProgram n p).out = s.out := rfl
@[simp] theorem State.withProgram_err : (s.withProgram n p).err = s.err := rfl
@[simp] theorem State.withProgram_programLength : (s.withProgram n p).programLength = n := rfl
@[simp] theorem State.withProgram_program : (s.withProgram n p).program = p := rfl
@[simp] theorem State.withProgram_nativeTable : (s.withProgram n p).nativeTable = s.nativeTable := rfl
@[simp] theorem State.withProgram_labelMap : (s.withProgram n p).labelMap = s.labelMap := rfl
@[simp] theorem State.withProgram_diagPath : (s.withProgram n p).diagPath = s.diagPath := rfl
@[simp] theorem State.withProgram_stackDepth : (s.withProgram n p).stackDepth = s.stackDepth := rfl
@[simp] theorem State.withProgram_hostDraw : (s.withProgram n p).hostDraw = s.hostDraw := rfl

end withProgram

section withHostDraw

variable (s : State) (v : Nat)

@[simp] theorem State.withHostDraw_stack : (s.withHostDraw v).stack = s.stack := rfl
@[simp] theorem State.withHostDraw_ip : (s.withHostDraw v).ip = s.ip := rfl
@[simp] theorem State.withHostDraw_haltFlag : (s.withHostDraw v).haltFlag = s.haltFlag := rfl
@[simp] theorem State.withHostDraw_flags : (s.withHostDraw v).flags = s.flags := rfl
@[simp] theorem State.withHostDraw_runState : (s.withHostDraw v).runState = s.runState := rfl
@[simp] theorem State.withHostDraw_out : (s.withHostDraw v).out = s.out := rfl
@[simp] theorem State.withHostDraw_err : (s.withHostDraw v).err = s.err := rfl
@[simp] theorem State.withHostDraw_programLength : (s.withHostDraw v).programLength = s.programLength := rfl
@[simp] theorem State.withHostDraw_program : (s.withHostDraw v).program = s.program := rfl
@[simp] theorem State.withHostDraw_nativeTable : (s.withHostDraw v).nativeTable = s.nativeTable := rfl
@[simp] theorem State.withHostDraw_labelMap : (s.withHostDraw v).labelMap = s.labelMap := rfl
@[simp] theorem State.withHostDraw_diagPath : (s.withHostDraw v).diagPath = s.diagPath := rfl
@[simp] theorem State.withHostDraw_stackDepth : (s.withHostDraw v).stackDepth = s.stackDepth := rfl
@[simp] theorem State.withHostDraw_hostDraw : (s.withHostDraw v).hostDraw = v := rfl

end withHostDraw

end Sys2Proof.Machine
end

