-- ==== Sys2Proof/Laws/Ops.lean ====
section
/-! SUPPORT. What the shared operations do: the fields of `advance` and of fault entry, and one lemma
each for the operations that choose between completing and faulting. -/

namespace Sys2Proof.Machine

section Advance

variable (s : State)

@[simp] theorem advance_stack : (advance s).stack = s.stack := rfl
@[simp] theorem advance_ip : (advance s).ip = s.ip + 1#64 := rfl
@[simp] theorem advance_haltFlag : (advance s).haltFlag = s.haltFlag := rfl
@[simp] theorem advance_flags : (advance s).flags = s.flags := rfl
@[simp] theorem advance_runState : (advance s).runState = s.runState := rfl
@[simp] theorem advance_out : (advance s).out = s.out := rfl
@[simp] theorem advance_err : (advance s).err = s.err := rfl
@[simp] theorem advance_programLength : (advance s).programLength = s.programLength := rfl
@[simp] theorem advance_program : (advance s).program = s.program := rfl
@[simp] theorem advance_nativeTable : (advance s).nativeTable = s.nativeTable := rfl
@[simp] theorem advance_labelMap : (advance s).labelMap = s.labelMap := rfl
@[simp] theorem advance_diagPath : (advance s).diagPath = s.diagPath := rfl
@[simp] theorem advance_stackDepth : (advance s).stackDepth = s.stackDepth := rfl
@[simp] theorem advance_hostDraw : (advance s).hostDraw = s.hostDraw := rfl

end Advance

section EnterFault

variable (k : FaultKind) (info : FaultInfo) (s : State)

@[simp] theorem enterFault_stack : (enterFault k info s).stack = s.stack := rfl
@[simp] theorem enterFault_ip : (enterFault k info s).ip = s.ip := rfl
@[simp] theorem enterFault_haltFlag : (enterFault k info s).haltFlag = s.haltFlag := rfl
@[simp] theorem enterFault_flags : (enterFault k info s).flags = s.flags := rfl
@[simp] theorem enterFault_runState : (enterFault k info s).runState = .faulted := rfl
@[simp] theorem enterFault_out : (enterFault k info s).out = s.out := rfl
@[simp] theorem enterFault_err : (enterFault k info s).err =
    some { kind := k, code := faultCode k, ip := s.ip, path := s.diagPath, info := info } := rfl
@[simp] theorem enterFault_programLength : (enterFault k info s).programLength = s.programLength := rfl
@[simp] theorem enterFault_program : (enterFault k info s).program = s.program := rfl
@[simp] theorem enterFault_nativeTable : (enterFault k info s).nativeTable = s.nativeTable := rfl
@[simp] theorem enterFault_labelMap : (enterFault k info s).labelMap = s.labelMap := rfl
@[simp] theorem enterFault_diagPath : (enterFault k info s).diagPath = s.diagPath := rfl
@[simp] theorem enterFault_stackDepth : (enterFault k info s).stackDepth = s.stackDepth := rfl
@[simp] theorem enterFault_hostDraw : (enterFault k info s).hostDraw = s.hostDraw := rfl

end EnterFault

theorem raise_eq (k : FaultKind) (info : FaultInfo) (s : State) :
    raise k info s = .next (enterFault k info s) := rfl

theorem completeWith_eq (stack : List Word) (s : State) :
    completeWith stack s = .next (advance (s.withStack stack)) := rfl

/-- An instruction that needs the top word underflows on an empty stack, and else runs its body. -/
theorem withTop_cases (s : State) (body : Word → List Word → Result) :
    (s.stack = [] ∧ withTop s body = .next (enterFault .stackUnderflow (.words 1 0) s)) ∨
      ∃ w rest, s.stack = w :: rest ∧ withTop s body = body w rest := by
  rcases h : s.stack with _ | ⟨w, rest⟩
  · exact .inl ⟨rfl, by simp only [withTop, h, raise_eq]⟩
  · exact .inr ⟨w, rest, rfl, by simp only [withTop, h]⟩

/-- A binary fetch underflows on fewer than two words, and else runs its body on the left operand,
the right operand and the words below. -/
theorem withTwo_cases (s : State) (body : Word → Word → List Word → Result) :
    (s.stack.length < 2 ∧
      withTwo s body = .next (enterFault .stackUnderflow (.words 2 s.stack.length) s)) ∨
      ∃ b a rest, s.stack = b :: a :: rest ∧ withTwo s body = body a b rest := by
  rcases h : s.stack with _ | ⟨b, _ | ⟨a, rest⟩⟩
  · exact .inl ⟨by simp, by simp only [withTwo, h, raise_eq, List.length_nil]⟩
  · exact .inl ⟨by simp, by
      simp only [withTwo, h, raise_eq, List.length_cons, List.length_nil, Nat.zero_add]⟩
  · exact .inr ⟨b, a, rest, rfl, by simp only [withTwo, h]⟩

/-- A binary ALU instruction ends by pushing its result or by a division by zero. -/
theorem finishAlu_cases (rest : List Word) (r : Option Word) (s : State) :
    (r = none ∧ finishAlu rest r s = .next (enterFault .divisionByZero .nothing s)) ∨
      ∃ w, r = some w ∧ finishAlu rest r s = .next (advance (s.withStack (w :: rest))) := by
  cases r with
  | none => exact .inl ⟨rfl, rfl⟩
  | some w => exact .inr ⟨w, rfl, rfl⟩

/-- A stack is full exactly when it is bounded and at its capacity. -/
theorem stackFull_iff (s : State) : stackFull s = true ↔ s.stackDepth = some s.stack.length := by
  unfold stackFull
  cases s.stackDepth with
  | none => simp
  | some n => simp only [beq_iff_eq, Option.some.injEq]; exact eq_comm

/-- A host's stack is held to the capacity, and unchanged when it fits. -/
theorem boundStack_length (n : Nat) (st : List Word) : (boundStack (some n) st).length ≤ n := by
  simp [boundStack, List.length_take]

theorem boundStack_of_fits (n : Nat) (st : List Word) (h : st.length ≤ n) :
    boundStack (some n) st = st := List.take_of_length_le h

end Sys2Proof.Machine
end

