-- ==== Sys2Proof/Laws/Exec.lean ====
section
/-! SUPPORT. What an instruction can do, said once: `Effect s i t` lists the shapes of the next
state, and `exec_effect` says every instruction has one of them. Invariants follow by cases on
`Effect`, without unfolding `exec`. -/

namespace Sys2Proof.Machine

/-- The next states instruction `i` can reach from `s`. -/
inductive Effect (s : State) : Instr → State → Prop where
  /-- A fault was taken (60_exceptions.md R132). -/
  | faulted (i : Instr) (k : FaultKind) (info : FaultInfo) : Effect s i (enterFault k info s)
  /-- An instruction other than `cmp` that moves words replaced the top `removed` of them by `new`,
  within the capacity, and `ip` advanced. -/
  | stacked (i : Instr) (removed : Nat) (new : List Word)
      (use : stackUse i = some (removed, new.length)) (moves : 0 < removed + new.length)
      (notCmp : ∀ o, i ≠ .cmp o) (enough : removed ≤ s.stack.length)
      (fits : ∀ n, s.stackDepth = some n → s.stack.length ≤ n →
        (new ++ s.stack.drop removed).length ≤ n) :
      Effect s i (advance (s.withStack (new ++ s.stack.drop removed)))
  /-- `cmp` consumed its operands and wrote the flags. -/
  | compared (o : Operand) (a b : Word) (x y : Int) (rest : List Word)
      (stack_eq : s.stack = b :: a :: rest) (values : comparable a b = some (x, y)) :
      Effect s (.cmp o) (advance ((s.withFlags (compareFlags x y s.flags)).withStack rest))
  /-- `dmp` appended the top word to the output. -/
  | output (o : Operand) (w : Word) (rest : List Word) (stack_eq : s.stack = w :: rest) :
      Effect s (.dmp o) (advance (s.withOut (s.out ++ [w])))
  /-- A jump was taken. -/
  | jumped (i : Instr) (target : Word) (jump : (∃ o, i = .jmp o) ∨ isCondJump i = true)
      (has : targetOf i.operand = some target) : Effect s i (s.withIp target)
  /-- `nop`, `label` or a conditional jump that is not taken only advanced `ip`. -/
  | advanced (i : Instr)
      (quiet : (∃ o, i = .nop o) ∨ (∃ o, i = .label o) ∨
        (isCondJump i = true ∧ ∃ t, targetOf i.operand = some t)) :
      Effect s i (advance s)
  /-- `halt`. -/
  | halted (o : Operand) :
      Effect s (.halt o) (((advance s).withHaltFlag true).withRunState .halted)
  /-- The host returned a stack to `native`. -/
  | answered (o : Operand) (stack : List Word) :
      Effect s (.native o)
        (advance ((s.withHostDraw (s.hostDraw + 1)).withStack (boundStack s.stackDepth stack)))
  /-- The host never returns: the run stays in this instruction. -/
  | waiting (o : Operand) : Effect s (.native o) s

/-- A result that is a next state of one of the shapes of `Effect`. -/
def HasEffect (s : State) (i : Instr) (r : Result) : Prop := ∃ t, r = .next t ∧ Effect s i t

theorem raise_effect (s : State) (i : Instr) (k : FaultKind) (info : FaultInfo) :
    HasEffect s i (raise k info s) := ⟨_, rfl, .faulted i k info⟩

/-- Completing with some words of the top replaced by no more than were there. -/
theorem completeWith_effect (s : State) (i : Instr) (removed : Nat) (new : List Word)
    (use : stackUse i = some (removed, new.length)) (moves : 0 < removed + new.length)
    (notCmp : ∀ o, i ≠ .cmp o) (enough : removed ≤ s.stack.length) (shrinks : new.length ≤ removed) :
    HasEffect s i (completeWith (new ++ s.stack.drop removed) s) :=
  ⟨_, rfl, .stacked i removed new use moves notCmp enough fun n _ hn => by
    simp only [List.length_append, List.length_drop]; omega⟩

theorem pushWord_effect (s : State) (i : Instr) (w : Word) (use : stackUse i = some (0, 1))
    (notCmp : ∀ o, i ≠ .cmp o) : HasEffect s i (pushWord w s) := by
  unfold pushWord
  split
  · exact raise_effect _ _ _ _
  · rename_i hfull
    refine ⟨_, rfl, .stacked i 0 [w] use (by simp) notCmp (Nat.zero_le _) fun n hn hle => ?_⟩
    have : s.stack.length ≠ n := fun e => hfull ((stackFull_iff s).mpr (e ▸ hn))
    simp only [List.length_append, List.length_drop, List.length_cons, List.length_nil]
    omega

/-- A binary ALU instruction's end, with its two operands still on the stack. -/
theorem finishAlu_effect (s : State) (i : Instr) (b a : Word) (rest : List Word)
    (r : Option Word) (hs : s.stack = b :: a :: rest) (use : stackUse i = some (2, 1))
    (notCmp : ∀ o, i ≠ .cmp o) : HasEffect s i (finishAlu rest r s) := by
  cases r with
  | none => exact raise_effect _ _ _ _
  | some w =>
    have h := completeWith_effect s i 2 [w] use (by simp) notCmp (by simp [hs]) (by simp)
    rw [hs] at h
    exact h

theorem floatBinary_effect (s : State) (i : Instr) (op : FloatVal → FloatVal → Option Word)
    (use : stackUse i = some (2, 1)) (notCmp : ∀ o, i ≠ .cmp o) :
    HasEffect s i (floatBinary op s) := by
  unfold floatBinary
  rcases withTwo_cases s _ with ⟨-, h⟩ | ⟨b, a, rest, hs, h⟩ <;> rw [h]
  · exact raise_effect _ _ _ _
  · split
    · exact finishAlu_effect s i b a rest _ hs use notCmp
    · exact raise_effect _ _ _ _

theorem intBinary_effect (s : State) (i : Instr) (op : Int → Int → Option Int)
    (use : stackUse i = some (2, 1)) (notCmp : ∀ o, i ≠ .cmp o) :
    HasEffect s i (intBinary op s) := by
  unfold intBinary
  rcases withTwo_cases s _ with ⟨-, h⟩ | ⟨b, a, rest, hs, h⟩ <;> rw [h]
  · exact raise_effect _ _ _ _
  · split
    · exact finishAlu_effect s i b a rest _ hs use notCmp
    · exact raise_effect _ _ _ _

theorem stepTop_effect (s : State) (i : Instr) (f : Word → Option Word)
    (use : stackUse i = some (1, 1)) (notCmp : ∀ o, i ≠ .cmp o) : HasEffect s i (stepTop f s) := by
  unfold stepTop
  rcases withTop_cases s _ with ⟨-, h⟩ | ⟨w, rest, hs, h⟩ <;> rw [h]
  · exact raise_effect _ _ _ _
  · split
    · rename_i v _
      have h := completeWith_effect s i 1 [v] use (by simp) notCmp (by simp [hs]) (by simp)
      rw [hs] at h
      exact h
    · exact raise_effect _ _ _ _

/-- A jump is taken, or, when it is conditional, falls through. -/
theorem jumpWhen_effect (s : State) (i : Instr) (taken : Bool)
    (jump : (∃ o, i = .jmp o) ∨ isCondJump i = true) (falls : taken = false → isCondJump i = true) :
    HasEffect s i (jumpWhen taken i.operand s) := by
  unfold jumpWhen
  split
  · exact raise_effect _ _ _ _
  · rename_i t ht
    cases taken with
    | true => exact ⟨_, rfl, .jumped i t jump ht⟩
    | false => exact ⟨_, rfl, .advanced i (.inr (.inr ⟨falls rfl, t, ht⟩))⟩

theorem execPush_effect (s : State) (o : Operand) : HasEffect s (.push o) (execPush o s) := by
  unfold execPush
  split
  · exact raise_effect _ _ _ _
  · exact pushWord_effect _ _ _ rfl (fun _ => Instr.noConfusion)

theorem execPop_effect (s : State) (o : Operand) : HasEffect s (.pop o) (execPop o s) := by
  unfold execPop
  rcases withTop_cases s _ with ⟨-, h⟩ | ⟨w, rest, hs, h⟩ <;> rw [h]
  · exact raise_effect _ _ _ _
  · have h := completeWith_effect s (.pop o) 1 [] rfl (by decide) (fun _ => Instr.noConfusion)
      (by simp [hs]) (by decide)
    rw [hs] at h
    exact h

theorem execSwap_effect (s : State) (o : Operand) : HasEffect s (.swap o) (execSwap o s) := by
  unfold execSwap
  rcases withTwo_cases s _ with ⟨-, h⟩ | ⟨b, a, rest, hs, h⟩ <;> rw [h]
  · exact raise_effect _ _ _ _
  · have h := completeWith_effect s (.swap o) 2 [a, b] rfl (by simp)
      (fun _ => Instr.noConfusion) (by simp [hs]) (by simp)
    rw [hs] at h
    exact h

theorem execDup_effect (s : State) (o : Operand) : HasEffect s (.dup o) (execDup o s) := by
  unfold execDup
  rcases withTop_cases s _ with ⟨-, h⟩ | ⟨w, rest, hs, h⟩ <;> rw [h]
  · exact raise_effect _ _ _ _
  · exact pushWord_effect _ _ _ rfl (fun _ => Instr.noConfusion)

theorem execCmp_effect (s : State) (o : Operand) : HasEffect s (.cmp o) (execCmp o s) := by
  unfold execCmp
  rcases withTwo_cases s _ with ⟨-, h⟩ | ⟨b, a, rest, hs, h⟩ <;> rw [h]
  · exact raise_effect _ _ _ _
  · split
    · rename_i x y hxy
      exact ⟨_, rfl, .compared o a b x y rest hs hxy⟩
    · exact raise_effect _ _ _ _

theorem execDmp_effect (s : State) (o : Operand) : HasEffect s (.dmp o) (execDmp o s) := by
  unfold execDmp
  rcases withTop_cases s _ with ⟨-, h⟩ | ⟨w, rest, hs, h⟩ <;> rw [h]
  · exact raise_effect _ _ _ _
  · exact ⟨_, rfl, .output o w rest hs⟩

theorem execNative_effect (s : State) (o : Operand) : HasEffect s (.native o) (execNative o s) := by
  unfold execNative
  split
  · exact raise_effect _ _ _ _
  · split
    · exact raise_effect _ _ _ _
    · unfold applyAnswer
      split
      · exact ⟨_, rfl, .answered o _⟩
      · exact raise_effect _ _ _ _
      · exact ⟨_, rfl, .waiting o⟩

/-- Every instruction answers a next state of one of the shapes of `Effect`. -/
theorem exec_effect (i : Instr) (s : State) : HasEffect s i (exec i s) := by
  cases i with
  | push o => exact execPush_effect s o
  | pop o => exact execPop_effect s o
  | fadd o => exact floatBinary_effect s _ _ rfl fun _ => Instr.noConfusion
  | fsub o => exact floatBinary_effect s _ _ rfl fun _ => Instr.noConfusion
  | fmul o => exact floatBinary_effect s _ _ rfl fun _ => Instr.noConfusion
  | fdiv o => exact floatBinary_effect s _ _ rfl fun _ => Instr.noConfusion
  | iadd o => exact intBinary_effect s _ _ rfl fun _ => Instr.noConfusion
  | isub o => exact intBinary_effect s _ _ rfl fun _ => Instr.noConfusion
  | imul o => exact intBinary_effect s _ _ rfl fun _ => Instr.noConfusion
  | idiv o => exact intBinary_effect s _ _ rfl fun _ => Instr.noConfusion
  | inc o => exact stepTop_effect s _ _ rfl fun _ => Instr.noConfusion
  | dec o => exact stepTop_effect s _ _ rfl fun _ => Instr.noConfusion
  | swap o => exact execSwap_effect s o
  | dup o => exact execDup_effect s o
  | cmp o => exact execCmp_effect s o
  | jmp o => exact jumpWhen_effect s (.jmp o) _ (.inl ⟨o, rfl⟩) (fun h => Bool.noConfusion h)
  | je o => exact jumpWhen_effect s (.je o) _ (.inr rfl) fun _ => rfl
  | jne o => exact jumpWhen_effect s (.jne o) _ (.inr rfl) fun _ => rfl
  | jg o => exact jumpWhen_effect s (.jg o) _ (.inr rfl) fun _ => rfl
  | jl o => exact jumpWhen_effect s (.jl o) _ (.inr rfl) fun _ => rfl
  | jge o => exact jumpWhen_effect s (.jge o) _ (.inr rfl) fun _ => rfl
  | jle o => exact jumpWhen_effect s (.jle o) _ (.inr rfl) fun _ => rfl
  | dmp o => exact execDmp_effect s o
  | nop o => exact ⟨_, rfl, .advanced _ (.inl ⟨o, rfl⟩)⟩
  | label o => exact ⟨_, rfl, .advanced _ (.inr (.inl ⟨o, rfl⟩))⟩
  | native o => exact execNative_effect s o
  | halt o => exact ⟨_, rfl, .halted o⟩

/-- The inversion: from an answer to its shape. -/
theorem effect_of_exec {i : Instr} {s t : State} (h : exec i s = .next t) : Effect s i t := by
  obtain ⟨u, hu, he⟩ := exec_effect i s
  rw [hu] at h
  cases h
  exact he

/-- What a step can do: it is taken only from a Running state, and halts past the end, faults on an
illegal slot, or runs the fetched instruction. -/
theorem step_next_cases {s t : State} (h : step s = .next t) :
    s.runState = .running ∧
      ((fetch s = .pastEnd ∧ t = s.withRunState .halted) ∨
        (∃ bytes, fetch s = .illegal bytes ∧
          t = enterFault .invalidEncoding (.slotBytes bytes) s) ∨
        ∃ i, fetch s = .instr i ∧ exec i s = .next t) := by
  unfold step at h
  rcases hr : s.runState <;> simp only [hr, reduceCtorEq] at h
  refine ⟨rfl, ?_⟩
  rcases hf : fetch s with _ | bytes | i <;> simp only [hf] at h
  · cases h; exact .inl ⟨rfl, rfl⟩
  · cases h; exact .inr (.inl ⟨bytes, rfl, rfl⟩)
  · exact .inr (.inr ⟨i, rfl, h⟩)

/-- A Running state always has a next state. -/
theorem step_of_running (s : State) (h : s.runState = .running) : ∃ t, step s = .next t := by
  unfold step
  simp only [h]
  rcases fetch s with _ | bytes | i
  · exact ⟨_, rfl⟩
  · exact ⟨_, rfl⟩
  · obtain ⟨t, ht, -⟩ := exec_effect i s
    exact ⟨t, ht⟩

end Sys2Proof.Machine
end

