-- ==== Sys2Proof/Laws/Flags.lean ====
section
/-! SUPPORT. The flags register unit and the condition logic. -/

namespace Sys2Proof.Machine

/-- The condition logic forgets the old flags and yields one of three values (43_compare.md
R112). -/
theorem compareFlags_eq (x y : Int) (f : BitVec 6) :
    compareFlags x y f = if x < y then 0x2C#6 else if x = y then 0x31#6 else 0x1A#6 := by
  have hl : ∀ f, conditionFlags false false true f = 0x2C#6 := by decide
  have he : ∀ f, conditionFlags true false false f = 0x31#6 := by decide
  have hg : ∀ f, conditionFlags false true false f = 0x1A#6 := by decide
  unfold compareFlags
  rcases lt_trichotomy x y with h | h | h
  · simp only [h, h.ne, h.not_gt, decide_true, decide_false, if_true, hl]
  · subst h
    simp only [lt_irrefl, decide_true, decide_false, if_true, if_false, he]
  · simp only [h, h.ne', h.not_gt, decide_true, decide_false, if_false, hg]

theorem flagsLegal_compareFlags (x y : Int) (f : BitVec 6) :
    flagsLegal (compareFlags x y f) = true := by
  rw [compareFlags_eq]
  split
  · decide
  · split <;> decide

end Sys2Proof.Machine
end

