-- ==== Sys2Proof/Laws/Keys.lean ====
section
/-! SUPPORT. Every instruction the decoder answers is well-formed, so every key a step looks up is
one of 10_state.md R21: a name of at most STR_MAX bytes, or an index. -/

namespace Sys2Proof.Machine

theorem decodeWordOperand_wf {variant : Word → Operand} {buf payload : List Byte} {o : Operand}
    {k : Nat} (hv : ∀ w, (variant w).wf = true)
    (h : decodeWordOperand variant buf payload = .ok (o, k)) : o.wf = true := by
  unfold decodeWordOperand at h
  split at h
  · cases h; exact hv _
  · cases h

theorem decodeStrOperand_wf {buf payload : List Byte} {o : Operand} {k : Nat}
    (h : decodeStrOperand buf payload = .ok (o, k)) : o.wf = true := by
  unfold decodeStrOperand at h
  repeat' split at h
  all_goals cases h
  simp only [Operand.wf, List.length_take, decide_eq_true_eq]
  omega

theorem decodeOperand_wf {tag : Byte} {buf payload : List Byte} {o : Operand} {k : Nat}
    (h : decodeOperand tag buf payload = .ok (o, k)) : o.wf = true := by
  unfold decodeOperand at h
  split at h
  · exact decodeWordOperand_wf (fun _ => rfl) h
  · cases h; rfl
  · exact decodeWordOperand_wf (fun _ => rfl) h
  · exact decodeWordOperand_wf (fun _ => rfl) h
  · exact decodeWordOperand_wf (fun _ => rfl) h
  · exact decodeStrOperand_wf h
  · cases h

/-- The opcode table's constructors keep the operand. -/
theorem instrOfOpcode_operand {op : Byte} {mk : Operand → Instr} (h : instrOfOpcode op = some mk)
    (o : Operand) : (mk o).operand = o := by
  unfold instrOfOpcode at h
  split at h <;> cases h <;> rfl

/-- What decode answers is well-formed (30_encoding.md R66, R70). -/
theorem decode_wf {buf : List Byte} {i : Instr} {k : Nat} (h : decode buf = .ok (i, k)) :
    i.wf = true := by
  unfold decode at h
  split at h
  · split at h
    · cases h
    · rename_i mk hm
      split at h
      · cases h
      · rename_i ho
        cases h
        rw [Instr.wf, instrOfOpcode_operand hm]
        exact decodeOperand_wf ho
  · cases h

/-- The key of a well-formed operand is a native key (R21, R77). -/
theorem nativeKeyOf_wf {o : Operand} {key : NativeKey} (ho : o.wf = true)
    (h : nativeKeyOf o = some key) : key.wf = true := by
  cases key with
  | index n => rfl
  | name s =>
    cases o with
    | str s' => cases h; exact ho
    | value w => simp [nativeKeyOf] at h
    | none => simp [nativeKeyOf] at h
    | int64 i => simp [nativeKeyOf] at h
    | uint64 u => simp [nativeKeyOf] at h
    | float f => simp [nativeKeyOf] at h

end Sys2Proof.Machine
end

