-- ==== Sys2Proof/Laws/Memory.lean ====
section
/-! SUPPORT. Program memory: a read after a write, and that every memory operation keeps the
canonical form. -/

namespace Sys2Proof.Machine

theorem Memory.read_write (m : Memory) (a b : Nat) (v : Byte) :
    Memory.read (Memory.write m a v) b = if b = a then some v else Memory.read m b := by
  induction m with
  | nil => simp [Memory.write, Memory.read]
  | cons c rest ih =>
    obtain ⟨d, w⟩ := c
    simp only [Memory.write]
    split
    · simp [Memory.read]
    · split
      · subst d
        simp only [Memory.read]
        split <;> rfl
      · simp only [Memory.read, ih]
        split
        · rw [if_neg]; omega
        · rfl

theorem Memory.risingFrom_write (m : Memory) (l a : Nat) (v : Byte) (hl : l < a)
    (h : Memory.risingFrom l m = true) : Memory.risingFrom l (Memory.write m a v) = true := by
  induction m generalizing l with
  | nil => simp [Memory.write, Memory.risingFrom, hl]
  | cons c rest ih =>
    obtain ⟨d, w⟩ := c
    simp only [Memory.risingFrom, Bool.and_eq_true, decide_eq_true_eq] at h
    simp only [Memory.write]
    split
    · simp [Memory.risingFrom, *]
    · split
      · subst d; simp [Memory.risingFrom, h]
      · simp only [Memory.risingFrom, Bool.and_eq_true, decide_eq_true_eq]
        exact ⟨h.1, ih d (by omega) h.2⟩

/-- A write keeps the canonical form. -/
theorem Memory.wf_write (m : Memory) (a : Nat) (v : Byte) (h : Memory.wf m = true) :
    Memory.wf (Memory.write m a v) = true := by
  cases m with
  | nil => rfl
  | cons c rest =>
    obtain ⟨d, w⟩ := c
    simp only [Memory.wf] at h
    simp only [Memory.write]
    split
    · simp [Memory.wf, Memory.risingFrom, *]
    · split
      · subst d; exact h
      · exact Memory.risingFrom_write rest d a v (by omega) h

/-- Writing consecutive bytes keeps the canonical form. -/
theorem Memory.wf_writeBytes (m : Memory) (a : Nat) (vs : List Byte) (h : Memory.wf m = true) :
    Memory.wf (Memory.writeBytes m a vs) = true := by
  induction vs generalizing m a with
  | nil => exact h
  | cons v vs ih => exact ih _ _ (Memory.wf_write m a v h)

/-- The host's store of a slot, and of a whole program, keeps the canonical form. -/
theorem wf_storeSlot (m : Memory) (i : Word) (bytes : List Byte) (h : Memory.wf m = true) :
    Memory.wf (storeSlot m i bytes) = true := Memory.wf_writeBytes m _ bytes h

theorem wf_storeSlots (m : Memory) (i : Word) (records : List (List Byte))
    (h : Memory.wf m = true) : Memory.wf (storeSlots m i records) = true := by
  induction records generalizing m i with
  | nil => exact h
  | cons r rs ih => exact ih _ _ (wf_storeSlot m i r h)

theorem wf_reset : Memory.wf State.reset.program = true := rfl

theorem wf_placeAtIp (s : State) (bytes : List Byte) (h : Memory.wf s.program = true) :
    Memory.wf (placeAtIp s bytes).program = true := wf_storeSlot s.program s.ip bytes h

/-- Bytes outside the written range read as before, and the written ones as written. -/
theorem Memory.read_writeBytes (m : Memory) (a b : Nat) (vs : List Byte) :
    Memory.read (Memory.writeBytes m a vs) b =
      if h : a ≤ b ∧ b < a + vs.length then some (vs[b - a]'(by omega)) else Memory.read m b := by
  induction vs generalizing m a with
  | nil =>
    rw [dif_neg (by simp only [List.length_nil]; omega)]
    rfl
  | cons v vs ih =>
    simp only [Memory.writeBytes, ih, Memory.read_write, List.length_cons]
    by_cases hb : b = a
    · subst b
      rw [dif_neg (by omega), dif_pos (by omega)]
      simp
    · by_cases hr : a + 1 ≤ b ∧ b < a + 1 + vs.length
      · rw [dif_pos hr, dif_pos (by omega)]
        obtain ⟨d, rfl⟩ : ∃ d, b = a + 1 + d := ⟨b - (a + 1), by omega⟩
        have e1 : a + 1 + d - (a + 1) = d := by omega
        have e2 : a + 1 + d - a = d + 1 := by omega
        simp [e1, e2]
      · rw [dif_neg hr, dif_neg (by omega), if_neg hb]

theorem programBytes_length (m : Memory) (a n : Nat) : (programBytes m a n).length = n := by
  induction n generalizing a with
  | zero => rfl
  | succ n ih => simp [programBytes, ih]

/-- A slot read gives exactly the 14 bytes of the slot. -/
theorem slotRead_length (s : State) (i : Word) :
    (slotRead s i).length = Config.recordCapacity := programBytes_length _ _ _

end Sys2Proof.Machine
end

