-- ==== Sys2Proof/Laws/PerInstr.lean ====
section
/-! SUPPORT. Per-instruction lemmas about the opcode table: the byte an instruction is encoded with
selects that instruction's constructor again. -/

namespace Sys2Proof.Laws.OpcodeTable

/-- The instruction's opcode byte is legal and selects its constructor (30_encoding.md R68). -/
def Statement (i : Instr) : Prop :=
  ∃ mk, instrOfOpcode (opcodeByte i) = some mk ∧ mk i.operand = i

theorem push (o : Operand) : Statement (.push o) := ⟨_, rfl, rfl⟩
theorem pop (o : Operand) : Statement (.pop o) := ⟨_, rfl, rfl⟩
theorem fadd (o : Operand) : Statement (.fadd o) := ⟨_, rfl, rfl⟩
theorem fsub (o : Operand) : Statement (.fsub o) := ⟨_, rfl, rfl⟩
theorem fmul (o : Operand) : Statement (.fmul o) := ⟨_, rfl, rfl⟩
theorem fdiv (o : Operand) : Statement (.fdiv o) := ⟨_, rfl, rfl⟩
theorem iadd (o : Operand) : Statement (.iadd o) := ⟨_, rfl, rfl⟩
theorem isub (o : Operand) : Statement (.isub o) := ⟨_, rfl, rfl⟩
theorem imul (o : Operand) : Statement (.imul o) := ⟨_, rfl, rfl⟩
theorem idiv (o : Operand) : Statement (.idiv o) := ⟨_, rfl, rfl⟩
theorem inc (o : Operand) : Statement (.inc o) := ⟨_, rfl, rfl⟩
theorem dec (o : Operand) : Statement (.dec o) := ⟨_, rfl, rfl⟩
theorem swap (o : Operand) : Statement (.swap o) := ⟨_, rfl, rfl⟩
theorem dup (o : Operand) : Statement (.dup o) := ⟨_, rfl, rfl⟩
theorem cmp (o : Operand) : Statement (.cmp o) := ⟨_, rfl, rfl⟩
theorem jmp (o : Operand) : Statement (.jmp o) := ⟨_, rfl, rfl⟩
theorem je (o : Operand) : Statement (.je o) := ⟨_, rfl, rfl⟩
theorem jne (o : Operand) : Statement (.jne o) := ⟨_, rfl, rfl⟩
theorem jg (o : Operand) : Statement (.jg o) := ⟨_, rfl, rfl⟩
theorem jl (o : Operand) : Statement (.jl o) := ⟨_, rfl, rfl⟩
theorem jge (o : Operand) : Statement (.jge o) := ⟨_, rfl, rfl⟩
theorem jle (o : Operand) : Statement (.jle o) := ⟨_, rfl, rfl⟩
theorem dmp (o : Operand) : Statement (.dmp o) := ⟨_, rfl, rfl⟩
theorem nop (o : Operand) : Statement (.nop o) := ⟨_, rfl, rfl⟩
theorem label (o : Operand) : Statement (.label o) := ⟨_, rfl, rfl⟩
theorem native (o : Operand) : Statement (.native o) := ⟨_, rfl, rfl⟩
theorem halt (o : Operand) : Statement (.halt o) := ⟨_, rfl, rfl⟩

end Sys2Proof.Laws.OpcodeTable
end

