-- ==== Sys2Proof/Laws/Value.lean ====
section
/-! SUPPORT. The tagged-value codec: the fields and the kind of a boxed word, and what the integer
family reads from a packed one. -/

namespace Sys2Proof.Machine

/-- Every bit of a boxed word. -/
theorem getLsbD_box (t : BitVec 4) (s : Bool) (m i : Nat) :
    (box t s m).getLsbD i =
      if i < 48 then (BitVec.ofNat 48 m).getLsbD i
      else if i < 52 then t.getLsbD (i - 48)
      else if i < 63 then true else decide (i = 63) && s := by
  have h : ∀ j, j < 11 → BitVec.getLsbD 0x7FF#11 j = true := by decide
  have e : (box t s m).getLsbD i =
    (BitVec.ofBool s ++ 0x7FF#11 ++ t ++ BitVec.ofNat 48 m : BitVec (1 + 11 + 4 + 48)).getLsbD i := rfl
  rw [e, BitVec.getLsbD_append, BitVec.getLsbD_append, BitVec.getLsbD_append]
  by_cases h1 : i < 48
  · simp only [h1, if_true]
  · by_cases h2 : i < 52
    · have : i - 48 < 4 := by omega
      simp only [h1, h2, this, if_true, if_false]
    · have h3 : ¬ i - 48 < 4 := by omega
      by_cases h4 : i < 63
      · have h5 : i - 48 - 4 < 11 := by omega
        simp only [h1, h2, h3, h4, h5, if_true, if_false]
        exact h _ h5
      · have h5 : ¬ i - 48 - 4 < 11 := by omega
        simp only [h1, h2, h3, h4, h5, if_false]
        rw [BitVec.getLsbD_ofBool]
        by_cases h6 : i = 63
        · subst h6; simp
        · have : ¬ i - 48 - 4 - 11 = 0 := by omega
          simp [h6, this]

@[simp] theorem signField_box (t : BitVec 4) (s : Bool) (m : Nat) : signField (box t s m) = s := by
  rw [signField, getLsbD_box, if_neg (by omega), if_neg (by omega), if_neg (by omega)]
  simp

@[simp] theorem expField_box (t : BitVec 4) (s : Bool) (m : Nat) : expField (box t s m) = 0x7FF#11 := by
  have h : ∀ j, j < 11 → BitVec.getLsbD 0x7FF#11 j = true := by decide
  apply BitVec.eq_of_getLsbD_eq
  intro i hi
  rw [h i hi, expField, BitVec.getLsbD_extractLsb', getLsbD_box, if_neg (by omega),
    if_neg (by omega), if_pos (by omega)]
  simp [hi]

@[simp] theorem tagField_box (t : BitVec 4) (s : Bool) (m : Nat) : tagField (box t s m) = t := by
  apply BitVec.eq_of_getLsbD_eq
  intro i hi
  rw [tagField, BitVec.getLsbD_extractLsb', getLsbD_box, if_neg (by omega), if_pos (by omega)]
  simp only [hi, decide_true, Bool.true_and, Nat.add_sub_cancel_left]

@[simp] theorem payField_box (t : BitVec 4) (s : Bool) (m : Nat) :
    payField (box t s m) = BitVec.ofNat 48 m := by
  apply BitVec.eq_of_getLsbD_eq
  intro i hi
  rw [payField, BitVec.getLsbD_extractLsb', getLsbD_box, if_pos (by omega)]
  simp only [hi, decide_true, Bool.true_and, Nat.zero_add]

theorem mantField_box (t : BitVec 4) (s : Bool) (m : Nat) :
    mantField (box t s m) = t ++ BitVec.ofNat 48 m := by
  apply BitVec.eq_of_getLsbD_eq
  intro i hi
  rw [mantField, BitVec.getLsbD_extractLsb', getLsbD_box, BitVec.getLsbD_append]
  simp only [hi, decide_true, Bool.true_and, Nat.zero_add, if_true]

theorem mantField_box_ne (t : BitVec 4) (s : Bool) (m : Nat) (h : t ≠ 0#4) :
    mantField (box t s m) ≠ 0#52 := by
  rw [mantField_box]
  intro e
  apply h
  apply BitVec.eq_of_getLsbD_eq
  intro i hi
  have hb : (t ++ BitVec.ofNat 48 m : BitVec (4 + 48)).getLsbD (i + 48) = false :=
    (congrArg (fun v : BitVec 52 => v.getLsbD (i + 48)) e).trans (by simp)
  rw [BitVec.getLsbD_append, if_neg (by omega), Nat.add_sub_cancel] at hb
  rw [hb, BitVec.getLsbD_zero]

theorem isReserved_box (t : BitVec 4) (s : Bool) (m : Nat) (h : t ≠ 0#4) :
    isReserved (box t s m) = true := by
  simp [isReserved, expField_box, mantField_box_ne t s m h]

@[simp] theorem kind_box_int64 (s : Bool) (m : Nat) : kind (box tagInt64 s m) = .int64 := by
  simp only [kind, isReserved_box tagInt64 s m (by decide), tagField_box]; decide

@[simp] theorem kind_box_uint64 (s : Bool) (m : Nat) : kind (box tagUInt64 s m) = .uint64 := by
  simp only [kind, isReserved_box tagUInt64 s m (by decide), tagField_box]; decide

@[simp] theorem kind_box_str (s : Bool) (m : Nat) : kind (box tagStr s m) = .str := by
  simp only [kind, isReserved_box tagStr s m (by decide), tagField_box]; decide

@[simp] theorem kind_box_byte (s : Bool) (m : Nat) : kind (box tagByte s m) = .byte := by
  simp only [kind, isReserved_box tagByte s m (by decide), tagField_box]; decide

/-- The integer family reads a packed Int64 as its truncated magnitude with its sign. -/
theorem asInteger_packInt (r : Int) :
    asInteger (packInt r) =
      some (.int64, if r < 0 then -((r.natAbs % 2 ^ 48 : Nat) : Int) else (r.natAbs % 2 ^ 48 : Nat)) := by
  simp only [asInteger, asInt64, packInt, kind_box_int64, if_true, signField_box, payField_box,
    BitVec.toNat_ofNat, Option.map_some]
  by_cases h : r < 0
  · by_cases h0 : r.natAbs % 2 ^ 48 = 0
    · simp only [h, h0, decide_true, bne_self_eq_false, Bool.and_false, Bool.false_eq_true, if_true,
        if_false, Int.natCast_zero, Int.neg_zero]
    · simp only [h, bne_iff_ne.mpr h0, decide_true, Bool.and_self, if_true]
  · simp only [h, decide_false, Bool.false_and, Bool.false_eq_true, if_false]

/-- The integer family reads a packed UInt64 modulo 2^48. -/
theorem asInteger_packUInt (r : Int) :
    asInteger (packUInt r) = some (.uint64, r % 2 ^ 48) := by
  have h1 : (0 : Int) ≤ r % 2 ^ 48 := Int.emod_nonneg _ (by decide)
  have h2 : r % 2 ^ 48 < 2 ^ 48 := Int.emod_lt_of_pos _ (by decide)
  have e : (((r % 2 ^ 48).toNat % 2 ^ 48 : Nat) : Int) = r % 2 ^ 48 := by omega
  simp only [asInteger, asUInt64, packUInt, kind_box_uint64, if_true, payField_box, BitVec.toNat_ofNat,
    Option.map_some, e]

/-- The low byte of a boxed word. -/
theorem lowByte_box (t : BitVec 4) (s : Bool) (m : Nat) :
    (box t s m).extractLsb' 0 8 = BitVec.ofNat 8 m := by
  apply BitVec.eq_of_getLsbD_eq
  intro i hi
  rw [BitVec.getLsbD_extractLsb', getLsbD_box, if_pos (by omega), BitVec.getLsbD_ofNat,
    BitVec.getLsbD_ofNat]
  simp [hi]
  omega

/-- The integer family reads a packed Byte modulo 2^8. -/
theorem asInteger_packByte (r : Int) :
    asInteger (packByte r) = some (.byte, r % 2 ^ 8) := by
  have h1 : (0 : Int) ≤ r % 2 ^ 8 := Int.emod_nonneg _ (by decide)
  have h2 : r % 2 ^ 8 < 2 ^ 8 := Int.emod_lt_of_pos _ (by decide)
  have e : (((r % 2 ^ 8).toNat % 2 ^ 8 : Nat) : Int) = r % 2 ^ 8 := by omega
  simp only [asInteger, asByte, packByte, kind_box_byte, if_true, lowByte_box, BitVec.toNat_ofNat,
    Option.map_some, e]

/-- A word of the integer family has the kind its integer kind names. -/
theorem kind_of_asInteger (w : Word) (k : IntKind) (x : Int) (h : asInteger w = some (k, x)) :
    kind w = k.toKind := by
  unfold asInteger at h
  split at h <;> simp only [Option.map_eq_some_iff, Prod.mk.injEq, reduceCtorEq] at h <;>
    · obtain ⟨_, _, rfl, _⟩ := h
      assumption

/-- Two operands of one integer kind, and nothing else, make an integer pair. -/
theorem sameInteger_eq_some_iff (a b : Word) (k : IntKind) (x y : Int) :
    sameInteger a b = some (k, x, y) ↔ asInteger a = some (k, x) ∧ asInteger b = some (k, y) := by
  unfold sameInteger
  rcases asInteger a with _ | ⟨ka, va⟩ <;> rcases asInteger b with _ | ⟨kb, vb⟩ <;>
    simp only [reduceCtorEq, false_and, and_false, Option.some.injEq, Prod.mk.injEq]
  by_cases h : ka = kb
  · subst h
    simp only [if_true, Option.some.injEq, Prod.mk.injEq]
    tauto
  · simp only [h, if_false, reduceCtorEq, false_iff]
    rintro ⟨⟨rfl, _⟩, rfl, _⟩
    exact h rfl

end Sys2Proof.Machine
end

