-- ==== Sys2Proof/Tests/Slice0.lean ====
section
/-! SUPPORT. The model's own tests. Expected results are the spec's: 95_test_vectors.md and the
examples of the rules. Then one witness for each statement that has hypotheses: a concrete state and
operands that meet them. -/

namespace Sys2Proof.Tests

open Sys2Proof.Machine Sys2Proof.Claims

/-- The reset state with a stack, top first. -/
def st (stack : List Word) : State := State.reset.withStack stack

/-- A run's start on the given records. -/
def run (records : List (List Byte)) : State := launch records [] [] "diag" none

/-- A record padded to a whole slot with zero bytes, so that a step on it can be computed. -/
def slot (record : List Byte) : List Byte := (record ++ List.replicate 14 0#8).take 14

/-- The stack of a next state that is not faulted. -/
def stackAfter : Result → Option (List Word)
  | .next t => if t.runState = .faulted then none else some t.stack
  | .fault _ => none
  | .refused _ => none

/-- The flags of a next state. -/
def flagsAfter : Result → Option (BitVec 6)
  | .next t => some t.flags
  | .fault _ => none
  | .refused _ => none

/-- The instruction pointer of a next state that is not faulted. -/
def ipAfter : Result → Option Word
  | .next t => if t.runState = .faulted then none else some t.ip
  | .fault _ => none
  | .refused _ => none

/-- The fault a next state records, with its code and information. -/
def faultAfter : Result → Option (FaultKind × Nat × FaultInfo)
  | .next t => t.err.map fun e => (e.kind, e.code, e.info)
  | .fault _ => none
  | .refused _ => none

/-! ### Well-formedness: a string of 12 bytes does not fit a record (30_encoding.md R66) -/

theorem test_wf_refuses_long_string : (Instr.push (.str (List.replicate 12 0x61#8))).wf = false := by
  decide

theorem test_wf_accepts_full_string : (Instr.push (.str (List.replicate 11 0x61#8))).wf = true := by
  decide

/-- A name of 12 bytes is no native key, and one key has one callback (10_state.md R21). -/
theorem test_native_table_wf :
    nativeTableWf [(.name (List.replicate 11 0x61#8), 0), (.index 0#64, 0)] = true ∧
      nativeTableWf [(.name (List.replicate 12 0x61#8), 0)] = false ∧
      nativeTableWf [(.index 0#64, 0), (.index 0#64, 1)] = false := by decide

/-! ### Decoding: one record per opcode, written out from the opcode table and R63 -/

theorem test_decode_push :
    decode [0x00, 0x02, 0x05, 0x00, 0x00, 0x00, 0x00, 0x00, 0x00, 0x00] =
      .ok (.push (.int64 5), 10) := rfl
theorem test_decode_pop : decode [0x01, 0x01] = .ok (.pop .none, 2) := rfl
theorem test_decode_fadd : decode [0x02, 0x01] = .ok (.fadd .none, 2) := rfl
theorem test_decode_fsub : decode [0x03, 0x01] = .ok (.fsub .none, 2) := rfl
theorem test_decode_fmul : decode [0x04, 0x01] = .ok (.fmul .none, 2) := rfl
theorem test_decode_fdiv : decode [0x05, 0x01] = .ok (.fdiv .none, 2) := rfl
theorem test_decode_iadd : decode [0x06, 0x01] = .ok (.iadd .none, 2) := rfl
theorem test_decode_isub : decode [0x07, 0x01] = .ok (.isub .none, 2) := rfl
theorem test_decode_imul : decode [0x08, 0x01] = .ok (.imul .none, 2) := rfl
theorem test_decode_idiv : decode [0x09, 0x01] = .ok (.idiv .none, 2) := rfl
theorem test_decode_inc : decode [0x0A, 0x01] = .ok (.inc .none, 2) := rfl
theorem test_decode_dec : decode [0x0B, 0x01] = .ok (.dec .none, 2) := rfl
theorem test_decode_swap : decode [0x0C, 0x01] = .ok (.swap .none, 2) := rfl
theorem test_decode_dup : decode [0x0D, 0x01] = .ok (.dup .none, 2) := rfl
theorem test_decode_cmp : decode [0x0E, 0x01] = .ok (.cmp .none, 2) := rfl
theorem test_decode_jmp :
    decode [0x0F, 0x03, 0x08, 0x00, 0x00, 0x00, 0x00, 0x00, 0x00, 0x00] =
      .ok (.jmp (.uint64 8), 10) := rfl
theorem test_decode_je :
    decode [0x10, 0x03, 0x06, 0x00, 0x00, 0x00, 0x00, 0x00, 0x00, 0x00] =
      .ok (.je (.uint64 6), 10) := rfl
theorem test_decode_jne :
    decode [0x11, 0x03, 0x00, 0x00, 0x00, 0x00, 0x00, 0x00, 0x00, 0x80] =
      .ok (.jne (.uint64 0x8000000000000000#64), 10) := rfl
theorem test_decode_jg :
    decode [0x12, 0x03, 0x01, 0x00, 0x00, 0x00, 0x00, 0x00, 0x00, 0x00] =
      .ok (.jg (.uint64 1), 10) := rfl
theorem test_decode_jl :
    decode [0x13, 0x03, 0x02, 0x00, 0x00, 0x00, 0x00, 0x00, 0x00, 0x00] =
      .ok (.jl (.uint64 2), 10) := rfl
theorem test_decode_jge :
    decode [0x14, 0x03, 0x07, 0x00, 0x00, 0x00, 0x00, 0x00, 0x00, 0x00] =
      .ok (.jge (.uint64 7), 10) := rfl
theorem test_decode_jle :
    decode [0x15, 0x03, 0x09, 0x00, 0x00, 0x00, 0x00, 0x00, 0x00, 0x00] =
      .ok (.jle (.uint64 9), 10) := rfl
theorem test_decode_dmp : decode [0x16, 0x05, 0x00] = .ok (.dmp (.str []), 3) := rfl
theorem test_decode_nop : decode [0x17, 0x01] = .ok (.nop .none, 2) := rfl
theorem test_decode_label : decode [0x18, 0x05, 0x01, 0x4C] = .ok (.label (.str [0x4C]), 4) := rfl
theorem test_decode_native :
    decode [0x19, 0x05, 0x05, 0x70, 0x72, 0x69, 0x6E, 0x74] =
      .ok (.native (.str [0x70, 0x72, 0x69, 0x6E, 0x74]), 8) := rfl
theorem test_decode_halt : decode [0x1A, 0x01, 0xFF, 0xFF] = .ok (.halt .none, 2) := rfl

/-! 95_test_vectors.md T2.2: malformed buffers, by the first failing check. -/

theorem test_decode_one_byte : decode [0x1B] = .error (.truncatedRecord 1) := rfl
theorem test_decode_opcode_first : decode [0xFF, 0x07] = .error (.invalidEncoding [0xFF, 0x07]) :=
  rfl
theorem test_decode_short_word : decode [0x00, 0x02, 0x05] = .error (.truncatedRecord 3) := rfl
theorem test_decode_long_string :
    decode [0x00, 0x05, 0x0C, 0x61] = .error (.invalidEncoding [0x00, 0x05, 0x0C, 0x61]) := rfl

/-! 95_test_vectors.md T2.1, E7: encoding. -/

theorem test_encode_minus_one :
    encode (.push (.int64 (BitVec.ofInt 64 (-1)))) =
      .ok [0x00, 0x02, 0xFF, 0xFF, 0xFF, 0xFF, 0xFF, 0xFF, 0xFF, 0xFF] := by rfl
theorem test_encode_too_large :
    encode (.push (.str (List.replicate 12 0x61#8))) = .error (.encodingTooLarge 12) := rfl

/-! T2.3: a slot that does not decode. -/

theorem test_fetch_illegal :
    faultAfter (step (run [slot [0x1B, 0x01]])) =
      some (.invalidEncoding, 3, .slotBytes (slot [0x1B, 0x01])) := by decide

/-! ### Instructions: at most two tests each -/

/-! T3 -/

theorem test_push_truncates :
    stackAfter (exec (.push (.int64 0x8000000000000000#64)) (st [])) =
      some [0x7FF1000000000000#64] := by decide
theorem test_push_none_on_full :
    faultAfter (exec (.push .none) { st [1#64] with stackDepth := some 1 }) =
      some (.invalidOperand, 8, .operand .none) := by decide
theorem test_pop : stackAfter (exec (.pop .none) (st [1#64, 2#64])) = some [2#64] := by decide
theorem test_swap :
    stackAfter (exec (.swap .none) (st [0x3FF8000000000000#64, 0x4002000000000000#64])) =
      some [0x4002000000000000#64, 0x3FF8000000000000#64] := by decide
theorem test_dup_full :
    faultAfter (exec (.dup .none) { st [1#64] with stackDepth := some 1 }) =
      some (.stackOverflow, 9, .depth 1) := by decide

/-! T4 -/

theorem test_fadd_rounds :
    stackAfter (exec (.fadd .none) (st [0x3FC999999999999A#64, 0x3FB999999999999A#64])) =
      some [0x3FD3333333333334#64] := by decide +kernel
theorem test_fadd_overflows :
    stackAfter (exec (.fadd .none) (st [0x7FEFFFFFFFFFFFFF#64, 0x7FEFFFFFFFFFFFFF#64])) =
      some [0x7FF0000000000000#64] := by decide +kernel
theorem test_fsub_order :
    stackAfter (exec (.fsub .none) (st [0x4008000000000000#64, 0x4014000000000000#64])) =
      some [0x4000000000000000#64] := by decide +kernel
theorem test_fmul_tie_to_even :
    stackAfter (exec (.fmul .none) (st [0x3FE0000000000000#64, 3#64])) = some [2#64] := by
  decide +kernel
theorem test_fmul_zero_times_infinity :
    stackAfter (exec (.fmul .none) (st [0x7FF0000000000000#64, 0#64])) =
      some [0x7FF8000000000000#64] := by decide +kernel
theorem test_fdiv_third :
    stackAfter (exec (.fdiv .none) (st [0x4008000000000000#64, 0x3FF0000000000000#64])) =
      some [0x3FD5555555555555#64] := by decide +kernel
theorem test_fdiv_minus_zero :
    faultAfter (exec (.fdiv .none) (st [0x8000000000000000#64, 0x3FF0000000000000#64])) =
      some (.divisionByZero, 6, .nothing) := by decide +kernel

/-! T5, T5.1 -/

theorem test_iadd_wraps_to_positive_zero :
    stackAfter (exec (.iadd .none) (st [0xFFF1000000000001#64, 0xFFF1FFFFFFFFFFFF#64])) =
      some [0x7FF1000000000000#64] := by decide
theorem test_iadd_mixed_kinds :
    faultAfter (exec (.iadd .none) (st [0x7FF2000000000001#64, 0x7FF1000000000001#64])) =
      some (.typeMismatch, 5, .kinds .int64 .uint64) := by decide
theorem test_isub_uint64_wraps :
    stackAfter (exec (.isub .none) (st [0x7FF2000000000005#64, 0x7FF2000000000003#64])) =
      some [0x7FF2FFFFFFFFFFFE#64] := by decide
theorem test_imul_truncates :
    stackAfter (exec (.imul .none) (st [0x7FF1000001000001#64, 0xFFF1000001000001#64])) =
      some [0xFFF1000002000001#64] := by decide
theorem test_idiv_toward_zero :
    stackAfter (exec (.idiv .none) (st [0x7FF1000000000002#64, 0xFFF1000000000007#64])) =
      some [0xFFF1000000000003#64] := by decide
theorem test_idiv_non_canonical_zero :
    faultAfter (exec (.idiv .none) (st [0xFFF1000000000000#64, 0x7FF1000000000001#64])) =
      some (.divisionByZero, 6, .nothing) := by decide
theorem test_inc_makes_canonical :
    stackAfter (exec (.inc .none) (st [0xFFF2000000000007#64])) =
      some [0x7FF2000000000008#64] := by decide
theorem test_inc_float_even :
    stackAfter (exec (.inc .none) (st [0x4340000000000000#64])) =
      some [0x4340000000000000#64] := by decide +kernel
theorem test_dec_non_canonical_zero :
    stackAfter (exec (.dec .none) (st [0xFFF1000000000000#64])) =
      some [0xFFF1000000000001#64] := by decide
theorem test_dec_other :
    faultAfter (exec (.dec .none) (st [0x7FF8000000000000#64])) =
      some (.typeMismatch, 5, .kind .other) := by decide

/-! T6 -/

theorem test_cmp_signed :
    flagsAfter (exec (.cmp .none) (st [0x7FF1000000000001#64, 0xFFF1000000000001#64])) =
      some 0x2C#6 := by decide
theorem test_cmp_minus_infinity :
    flagsAfter (exec (.cmp .none) (st [0xFFEFFFFFFFFFFFFF#64, 0xFFF0000000000000#64])) =
      some 0x2C#6 := by decide +kernel

/-! T7 -/

theorem test_jmp_value :
    ipAfter (exec (.jmp (.value 0x7FF2000000000008#64)) (st [])) = some 8#64 := by decide
theorem test_jmp_negative :
    faultAfter (exec (.jmp (.int64 (BitVec.ofInt 64 (-1)))) (st [])) =
      some (.invalidOperand, 8, .operand (.int64 (BitVec.ofInt 64 (-1)))) := by decide
theorem test_je_taken :
    ipAfter (exec (.je (.uint64 6)) ((st []).withFlags 0x31#6)) = some 6#64 := by decide
theorem test_je_checks_operand_untaken :
    faultAfter (exec (.je (.str [0x4C])) (st [])) =
      some (.invalidOperand, 8, .operand (.str [0x4C])) := by decide
theorem test_jne_reset : ipAfter (exec (.jne (.uint64 9)) (st [])) = some 1#64 := by decide
theorem test_jg_taken :
    ipAfter (exec (.jg (.uint64 9)) ((st []).withFlags 0x1A#6)) = some 9#64 := by decide
theorem test_jl_taken :
    ipAfter (exec (.jl (.uint64 2)) ((st []).withFlags 0x2C#6)) = some 2#64 := by decide
theorem test_jge_taken :
    ipAfter (exec (.jge (.uint64 7)) ((st []).withFlags 0x31#6)) = some 7#64 := by decide
theorem test_jle_untaken :
    ipAfter (exec (.jle (.uint64 9)) ((st []).withFlags 0x1A#6)) = some 1#64 := by decide
theorem test_nop : exec (.nop .none) (st []) = .next ((st []).withIp 1#64) := rfl
theorem test_label : exec (.label (.str [0x4C])) (st []) = .next ((st []).withIp 1#64) := rfl
theorem test_halt :
    exec (.halt .none) (st []) =
      .next { st [] with haltFlag := true, ip := 1#64, runState := .halted } := rfl

/-! T8 -/

theorem test_dmp :
    exec (.dmp .none) (st [0x7FF8000000000000#64]) =
      .next { st [0x7FF8000000000000#64] with out := [0x7FF8000000000000#64], ip := 1#64 } := rfl
theorem test_native_unknown :
    faultAfter (exec (.native (.str [0x78])) (st [])) =
      some (.unknownNative, 7, .key (.name [0x78])) := by decide
theorem test_native_fail :
    faultAfter (applyAnswer (.index 3) .fail (st [])) =
      some (.nativeFailed, 10, .key (.index 3)) := by decide

/-! P0, P7: the implicit halt leaves H at 0. -/

theorem test_empty_program :
    step State.reset = .next { State.reset with runState := .halted } := rfl

/-! The host's placement. -/

theorem test_withFetchWord :
    step (State.reset.withFetchWord 8 0x17) =
      exec (.nop (.value 0)) (State.reset.withFetchWord 8 0x17) := rfl

/-! ### Witnesses -/

/-- Bits: Float 1.0 and +0.0; Int64 5; a UInt64; a Byte; a Str; an Other. -/
def one : Word := 0x3FF0000000000000#64
def five : Word := 0x7FF1000000000005#64
def u7 : Word := 0x7FF2000000000007#64
def b2 : Word := 0x7FF4000000000002#64
def str3 : Word := 0x7FF3000000000003#64
def nan : Word := 0x7FF8000000000000#64

/-- A run whose first slot holds a record. -/
def on (record : List Byte) (stack : List Word) : State := (run [slot record]).withStack stack

theorem witness_StepKeepsInvariant :
    (on [0x0D, 0x01] [five]).Inv ∧ ∃ t, step (on [0x0D, 0x01] [five]) = .next t :=
  ⟨by decide, _, rfl⟩

theorem witness_ExactlyRunningStatesStep :
    (∃ t, step State.reset = .next t) ∧ State.reset.runState = .running := ⟨⟨_, rfl⟩, rfl⟩

theorem witness_StepRunsTheDecodedInstruction :
    (run []).runState = .running ∧ (run []).programLength ≤ (run []).ip ∧
      (run [slot [0x17, 0x01]]).ip < (run [slot [0x17, 0x01]]).programLength ∧
      decode (slotRead (run [slot [0x17, 0x01]]) 0#64) = .ok (.nop .none, 2) ∧
      decode (slotRead (run [slot [0x00, 0x06]]) 0#64) =
        .error (.invalidEncoding (slot [0x00, 0x06])) :=
  ⟨rfl, by decide, by decide, rfl, rfl⟩

theorem witness_ImplicitHaltPastTheEnd :
    ((run [slot []]).withIp 1#64).runState = .running ∧
      ((run [slot []]).withIp 1#64).programLength ≤ ((run [slot []]).withIp 1#64).ip := by
  decide

theorem witness_FetchFaultsOnlyByInvalidEncoding :
    (run [slot [0x1B]]).runState = .running ∧
      (run [slot [0x1B]]).ip < (run [slot [0x1B]]).programLength ∧
      decode (slotRead (run [slot [0x1B]]) 0#64) = .error (.invalidEncoding (slot [0x1B])) :=
  ⟨rfl, by decide, rfl⟩

theorem witness_CodecRoundTrip :
    (Instr.label (.str [0x4C])).wf = true ∧
      decode [0x18, 0x05, 0x01, 0x4C, 0xFF] = .ok (.label (.str [0x4C]), 4) ∧
      (∃ e, encode (.label (.str (List.replicate 12 0x61#8))) = .error e) ∧
      11 < (List.replicate 12 0x61#8).length := ⟨rfl, rfl, ⟨_, rfl⟩, by decide⟩

/-- Each clause of the check order, at a boundary. -/
theorem witness_DecodeFollowsCheckOrder :
    ([0x00] : List Byte).length < 2 ∧ 0x1A < (0x1B#8).toNat ∧ (0x1A#8).toNat ≤ 0x1A ∧
      5 < (6#8).toNat ∧ 4#8 ∈ [0#8, 2#8, 3#8, 4#8] ∧ ([1, 2, 3, 4, 5, 6, 7] : List Byte).length < 8 ∧
      11 < (12#8).toNat ∧ (11#8).toNat ≤ 11 ∧
      (List.replicate 10 0x61#8).length < (11#8).toNat ∧
      (11#8).toNat ≤ (List.replicate 11 0x61#8).length := by decide

/-- Strings of 11 and 12 bytes; every other clause has its variant as its only hypothesis. -/
theorem witness_EncodeWritesTheRecord :
    (List.replicate 11 0x61#8).length ≤ 11 ∧ 11 < (List.replicate 12 0x61#8).length ∧
      (Instr.push (.str (List.replicate 12 0x61#8))).operand =
        .str (List.replicate 12 0x61#8) := by decide

theorem witness_OpcodeTableDecodes :
    (0x1A#8, Instr.halt .none) ∈ [(0x1A#8, Instr.halt .none)] ∧ 0x1A < (0x1B#8).toNat := by decide

/-- R44 at the largest magnitude; -0.0 is not reserved. -/
theorem witness_TaggedValueLaws :
    (BitVec.ofInt 64 (-(2 ^ 48 - 1))).toInt.natAbs < 2 ^ 48 ∧
      (0xFFFFFFFFFFFF#64).toNat < 2 ^ 48 ∧ 2 ^ 48 - 1 < 2 ^ 48 ∧
      isReserved 0x8000000000000000#64 = false := by decide

theorem witness_IntegerResultsAreCanonical :
    Instr.iadd .none ∈ [Instr.iadd .none, .isub .none, .imul .none, .idiv .none, .inc .none,
        .dec .none] ∧
      ∃ t, exec (.iadd .none) (st [five, five]) = .next t ∧ t.stack ≠ (st [five, five]).stack ∧
        t.stack = [0x7FF100000000000A#64] :=
  ⟨by decide, _, rfl, by decide, by decide⟩

/-- The clauses of the multiplexer, at the ends of the Int64 operand's two ranges. -/
theorem witness_OperandMultiplexer :
    (0x7FFFFFFFFFFFFFFF#64).toNat < 2 ^ 63 ∧ 2 ^ 63 ≤ (0x8000000000000000#64).toNat ∧
      asUInt64 u7 = some 7 ∧ asInt64 five = some ((5 : Nat) : Int) ∧
      asInt64 0xFFF1000000000001#64 = some (-1) ∧ (-1 : Int) < 0 ∧ kind one ≠ .int64 ∧
      kind one ≠ .uint64 := by decide

theorem witness_FlagOperationsAreIndependent : Flag.greater ≠ Flag.greaterOrEqual := by decide

theorem witness_PushRule :
    valueOf .none = none ∧ valueOf (.int64 5) = some five ∧
      ({ st [one] with stackDepth := some 1 }).stackDepth = some (st [one]).stack.length ∧
      (st [one]).stackDepth ≠ some (st [one]).stack.length := by decide

/-- NeedsWords, at the last depth that is too small: pop, dup, inc, dec, dmp need one word, the
other stack instructions two. -/
theorem witness_NeedsWords : (st []).stack.length < 1 ∧ (st [one]).stack.length < 2 := by decide

theorem witness_PopRule : (st [one]).stack = [one] := rfl
theorem witness_SwapRule : (st [one, five]).stack = [one, five] := rfl

theorem witness_DupRule :
    ({ st [one] with stackDepth := some 1 }).stackDepth = some (st [one]).stack.length ∧
      ({ st [one] with stackDepth := some 2 }).stackDepth ≠ some (st [one]).stack.length := by decide

/-- fadd, fsub, fmul: two Float words, and pairs that are rejected. -/
theorem witness_FloatRules :
    (st [one, one]).stack = [one, one] ∧ kind one = .float ∧
      floatPair (kind five) (kind one) = false ∧ floatPair (kind one) (kind nan) = false := by decide

theorem witness_FdivRule :
    kind one = .float ∧ kind 0x8000000000000000#64 = .float ∧ one ≠ 0#64 ∧
      one ≠ 0x8000000000000000#64 ∧ floatPair (kind one) (kind five) = false := by decide

theorem witness_NaNOnlyFromInvalidOperations :
    floatIsZero (.infinite true) = false ∧ fdiv64 (.infinite false) (.infinite true) = none := by
  decide

theorem witness_FloatSignRules :
    kind one = .float ∧
      (∃ w, fmul64 (floatValue one) (floatValue one) = some w) ∧
      ∃ w, fdiv64 (floatValue one) (floatValue one) = some w :=
  ⟨by decide, ⟨one, by decide +kernel⟩, one, by decide +kernel⟩

/-- One infinite operand, and two of one sign; the smallest subnormal is not zero. -/
theorem witness_FloatInfinities :
    FloatVal.finite false 1 ≠ .infinite true ∧ FloatVal.infinite true ≠ .infinite (!true) ∧
      FloatVal.infinite true ≠ .infinite false ∧ (1 : Nat) ≠ 0 := by decide

theorem witness_FloatResultsAreNearestEven :
    exactValue (.finite false 3) = some (3 / 2 ^ 1074) ∧
      exactValue (.finite true 1) = some (-1 / 2 ^ 1074) ∧ (-1 / 2 ^ 1074 : ℚ) ≠ 0 :=
  ⟨rfl, rfl, by positivity⟩

/-- iadd, isub, imul: a pair of each integer kind, and pairs that are rejected. -/
theorem witness_IntegerRules :
    (st [five, five]).stack = [five, five] ∧ asInt64 five = some 5 ∧ asUInt64 u7 = some 7 ∧
      asByte b2 = some 2#8 ∧ integerPair (kind five) (kind u7) = false ∧
      integerPair (kind str3) (kind str3) = false := by decide

theorem witness_IdivRule :
    (5 : Int) ≠ 0 ∧ asInt64 five = some 5 ∧ asUInt64 u7 = some 7 ∧ asByte b2 = some 2#8 ∧
      ((2#8).toNat : Int) ≠ 0 ∧ kind five = kind 0xFFF1000000000000#64 ∧
      asInt64 0xFFF1000000000000#64 = some 0 ∧ asUInt64 0x7FF2000000000000#64 = some 0 ∧
      asByte 0x7FF4000000000100#64 = some 0#8 ∧ kind u7 = kind 0x7FF2000000000000#64 ∧
      kind b2 = kind 0x7FF4000000000100#64 := by decide

/-- inc and dec: a word of each kind. -/
theorem witness_IncRule_DecRule :
    (st [one]).stack = [one] ∧ kind one = .float ∧ asInt64 five = some 5 ∧ asUInt64 u7 = some 7 ∧
      asByte b2 = some 2#8 ∧ kind str3 = .str ∧ kind nan = .other := by decide

theorem witness_CmpRule :
    (st [five, five]).stack = [five, five] ∧ asInt64 five = some 5 ∧ asUInt64 u7 = some 7 ∧
      asByte b2 = some 2#8 ∧ kind one = .float ∧
      (floatPair (kind str3) (kind str3) || integerPair (kind str3) (kind str3)) = false := by decide

theorem witness_CmpOrdersFloatsByTheirBits :
    (st [0#64, 0x8000000000000000#64]).stack = [0#64, 0x8000000000000000#64] ∧
      kind 0#64 = .float ∧ kind 0x8000000000000000#64 = .float := by decide

theorem witness_ComparisonConsistency :
    ∃ t, exec (.cmp .none) (st [five, five]) = .next t ∧ t.stack ≠ (st [five, five]).stack :=
  ⟨_, rfl, by decide⟩

/-- jmp and the conditional jumps: an operand with a target and one without. -/
theorem witness_JmpRule_ConditionalJumpRules :
    targetOf (.uint64 0xFFFFFFFFFFFFFFFF#64) = some 0xFFFFFFFFFFFFFFFF#64 ∧
      targetOf (.str [0x4C]) = none := by decide

theorem witness_DmpRule : (st [nan]).stack = [nan] := rfl

/-- A state whose table has the callback 0 under index 3. -/
def withNative : State := { st [one] with nativeTable := [(.index 3#64, 0)] }

theorem witness_NativeRefusesBadKeys :
    nativeKeyOf (.float one) = none ∧ nativeKeyOf (.str [0x78]) = some (.name [0x78]) ∧
      ∀ p ∈ withNative.nativeTable, p.1 ≠ .name [0x78] := by decide

theorem witness_NativeFollowsTheHostAnswer :
    nativeKeyOf (.uint64 3) = some (.index 3#64) ∧
      lookupNative withNative.nativeTable (.index 3#64) = some 0 := by decide

theorem witness_NativeSeesOnlyTheStack :
    ∃ t t', withNative.stack = (withNative.withFlags 0x31#6).stack ∧
      withNative.nativeTable = (withNative.withFlags 0x31#6).nativeTable ∧
      withNative.stackDepth = (withNative.withFlags 0x31#6).stackDepth ∧
      withNative.hostDraw = (withNative.withFlags 0x31#6).hostDraw ∧
      exec (.native .none) withNative = .next t ∧
      exec (.native .none) (withNative.withFlags 0x31#6) = .next t' :=
  ⟨_, _, rfl, rfl, rfl, rfl, rfl, rfl⟩

theorem witness_FaultsArePrecise :
    ∃ t, step (on [0x01, 0x01] []) = .next t ∧ t.runState = .faulted := ⟨_, rfl, rfl⟩

theorem witness_IpAdvancesByOneUnlessJumping :
    (on [0x0D, 0x01] [five]).runState = .running ∧
      fetch (on [0x0D, 0x01] [five]) = .instr (.dup .none) ∧
      ∃ t, exec (.dup .none) (on [0x0D, 0x01] [five]) = .next t ∧ t.runState ≠ .faulted :=
  ⟨rfl, rfl, _, rfl, by decide⟩

/-- The frame's changes each happen: flags by cmp, H by halt, OUT by dmp, ERR by a fault. -/
theorem witness_InstructionFrame :
    (∃ t, exec (.cmp .none) (st [five, five]) = .next t ∧ t.flags ≠ (st [five, five]).flags) ∧
      (∃ t, exec (.halt .none) (st []) = .next t ∧ t.haltFlag ≠ (st []).haltFlag ∧
        t.runState ≠ (st []).runState) ∧
      (∃ t, exec (.dmp .none) (st [one]) = .next t ∧ t.out ≠ (st [one]).out) ∧
      (∃ t, exec (.pop .none) (st []) = .next t ∧ t.err ≠ (st []).err) ∧
      ∃ t, applyAnswer (.index 3) (.ret []) (st [one]) = .next t ∧
        t.hostDraw ≠ (st [one]).hostDraw :=
  ⟨⟨_, rfl, by decide⟩, ⟨_, rfl, by decide, by decide⟩, ⟨_, rfl, by decide⟩, ⟨_, rfl, by decide⟩,
    _, rfl, by decide⟩

theorem witness_OnlyTheTopOfTheStackMoves :
    stackUse (.swap .none) = some (2, 2) ∧
      ∃ t, exec (.swap .none) (st [one, five]) = .next t := ⟨rfl, _, rfl⟩

/-- Another instruction, a cmp that faults, and a cmp that completes. -/
theorem witness_FlagsReadOnlyByConditionalJumps :
    isCondJump (.dup .none) = false ∧ (∃ t, exec (.dup .none) (st [one]) = .next t) ∧
      isCondJump (.cmp .none) = false ∧
      (∃ t, exec (.cmp .none) (st [one]) = .next t ∧ t.stack = (st [one]).stack) ∧
      ∃ t, exec (.cmp .none) (st [five, five]) = .next t ∧ t.stack ≠ (st [five, five]).stack :=
  ⟨rfl, ⟨_, rfl⟩, rfl, ⟨_, rfl, rfl⟩, _, rfl, by decide⟩

/-- One step for the statements about every step: LabelMapIsNeverRead, LaunchParametersAreFixed. -/
theorem witness_LabelMapIsNeverRead_LaunchParametersAreFixed :
    ∃ t, step (on [0x0C, 0x01] [one, five]) = .next t := ⟨_, rfl⟩

theorem witness_OutputGrowsOnlyByDmp :
    ∃ t, step (on [0x16, 0x01] [nan]) = .next t ∧ t.out = [nan] := ⟨_, rfl, rfl⟩

theorem witness_HaltFlagOnlyByHalt :
    ∃ t, step (on [0x1A, 0x01] []) = .next t ∧ t.haltFlag = true := ⟨_, rfl, rfl⟩

theorem witness_PlacedInstructionIsStepped :
    State.reset.ip ≠ BitVec.allOnes 64 ∧ decodeTableWord 8 0x0F = some (.jmp (.value 0)) :=
  ⟨by decide, rfl⟩

theorem witness_LaunchedRecordsStandInTheirSlots :
    ([[0x17, 0x01], [0x1A, 0x01]] : List (List Byte)).length < 2 ^ 64 ∧
      ∀ r ∈ ([[0x17, 0x01], [0x1A, 0x01]] : List (List Byte)), r.length ≤ 14 := by decide

end Sys2Proof.Tests
end

/-! ## What an instruction leaves unchanged: one lemma per part of the state, by cases on `Effect` -/

namespace Sys2Proof.Machine

/-- The program and the launch parameters, which no instruction writes (10_state.md R20 to R23,
70_reset_and_hazards.md R147). -/
structure SameLaunch (s t : State) : Prop where
  programLength : t.programLength = s.programLength
  program : t.program = s.program
  nativeTable : t.nativeTable = s.nativeTable
  labelMap : t.labelMap = s.labelMap
  diagPath : t.diagPath = s.diagPath
  stackDepth : t.stackDepth = s.stackDepth

namespace Effect

variable {s t : State} {i : Instr}

theorem sameLaunch (e : Effect s i t) : SameLaunch s t := by
  cases e <;> exact ⟨rfl, rfl, rfl, rfl, rfl, rfl⟩

/-- Only a completing `cmp` writes the flags (10_state.md R16). -/
theorem flags_cases (e : Effect s i t) :
    t.flags = s.flags ∨ ∃ o x y, i = .cmp o ∧ t.flags = compareFlags x y s.flags := by
  cases e with
  | compared o a b x y rest => exact .inr ⟨o, x, y, rfl, rfl⟩
  | _ => exact .inl rfl

/-- Only `dmp` writes the output, and it appends the top word (10_state.md R19). -/
theorem out_cases (e : Effect s i t) :
    t.out = s.out ∨ ∃ o w, i = .dmp o ∧ s.stack.head? = some w ∧ t.out = s.out ++ [w] := by
  cases e with
  | output o w rest stack_eq => exact .inr ⟨o, w, rfl, by rw [stack_eq, List.head?_cons], rfl⟩
  | _ => exact .inl rfl

/-- Only `native` draws an answer of the host (log entry 5). -/
theorem hostDraw_cases (e : Effect s i t) : t.hostDraw = s.hostDraw ∨ ∃ o, i = .native o := by
  cases e with
  | answered o stack => exact .inr ⟨o, rfl⟩
  | _ => exact .inl rfl

/-- The run state, the error record and the halt flag stay as they are, but for a fault and for
`halt` (10_state.md R15, R18, R20). -/
theorem status_cases (e : Effect s i t) :
    (t.runState = s.runState ∧ t.err = s.err ∧ t.haltFlag = s.haltFlag) ∨
      (t.runState = .faulted ∧ t.err.isSome = true ∧ t.haltFlag = s.haltFlag) ∨
        ((∃ o, i = .halt o) ∧ t.runState = .halted ∧ t.err = s.err ∧ t.haltFlag = true) := by
  cases e with
  | faulted i k info => exact .inr (.inl ⟨rfl, rfl, rfl⟩)
  | halted o => exact .inr (.inr ⟨⟨o, rfl⟩, rfl, rfl, rfl⟩)
  | _ => exact .inl ⟨rfl, rfl, rfl⟩

end Effect

end Sys2Proof.Machine

/-! ## The machine's invariant -/

namespace Sys2Proof.Machine

theorem depthOk_iff (depth : Option Nat) (stack : List Word) :
    depthOk depth stack = true ↔ ∀ n, depth = some n → 0 < n ∧ stack.length ≤ n := by
  cases depth <;> simp [depthOk]

/-- A host's stack, held to the capacity, is within it. -/
theorem depthOk_boundStack {depth : Option Nat} {stack : List Word} (v : List Word)
    (h : depthOk depth stack = true) : depthOk depth (boundStack depth v) = true := by
  rw [depthOk_iff] at h ⊢
  rintro n rfl
  exact ⟨(h n rfl).1, boundStack_length n v⟩

/-- A stack no longer than one within the capacity is within it. -/
theorem depthOk_of_length_le {depth : Option Nat} {stack v : List Word}
    (h : depthOk depth stack = true) (hle : v.length ≤ stack.length) : depthOk depth v = true := by
  rw [depthOk_iff] at h ⊢
  intro n hn
  exact ⟨(h n hn).1, hle.trans (h n hn).2⟩

namespace Effect

variable {s t : State} {i : Instr}

/-- Every instruction keeps the stack within its capacity (10_state.md R12). -/
theorem depthOk_keeps (e : Effect s i t) (h : depthOk s.stackDepth s.stack = true) :
    depthOk t.stackDepth t.stack = true := by
  cases e with
  | stacked i removed new use moves notCmp enough fits =>
    rw [depthOk_iff] at h ⊢
    intro n hn
    exact ⟨(h n hn).1, fits n hn (h n hn).2⟩
  | compared o a b x y rest stack_eq => exact depthOk_of_length_le h (by simp [stack_eq]; omega)
  | answered o stack => exact depthOk_boundStack stack h
  | _ => exact h

/-- Every instruction keeps the flags legal (43_compare.md R112). -/
theorem flagsLegal_keeps (e : Effect s i t) (h : flagsLegal s.flags = true) :
    flagsLegal t.flags = true := by
  obtain hf | ⟨o, x, y, -, hf⟩ := e.flags_cases
  · rwa [hf]
  · rw [hf]
    exact flagsLegal_compareFlags x y s.flags

/-- Every instruction run in a Running state keeps the invariant. -/
theorem inv_keeps (e : Effect s i t) (hrun : s.runState = .running) (h : s.Inv) : t.Inv := by
  obtain ⟨hprogram, hdepth, hflags, herr, hhalt, htable⟩ := h
  have same := e.sameLaunch
  have noErr : s.err.isSome ≠ true := fun he => by simpa [hrun] using herr.mpr he
  have noHalt : s.haltFlag ≠ true := fun hh => by simpa [hrun] using hhalt hh
  have status : (t.runState = .faulted ↔ t.err.isSome = true) ∧
      (t.haltFlag = true → t.runState = .halted) := by
    obtain ⟨hr, he, hh⟩ | ⟨hr, he, hh⟩ | ⟨-, hr, he, hh⟩ := e.status_cases
    · simp [hr, he, hh, hrun, noErr, noHalt]
    · simp [hr, he, hh, noHalt]
    · simp [hr, he, noErr]
  exact ⟨same.program ▸ hprogram, e.depthOk_keeps hdepth, e.flagsLegal_keeps hflags, status.1,
    status.2, same.nativeTable ▸ htable⟩

end Effect

/-- The implicit halt of a Running state keeps the invariant (40_engine_step.md R84). -/
theorem inv_implicitHalt {s : State} (hrun : s.runState = .running) (h : s.Inv) :
    (s.withRunState .halted).Inv := by
  obtain ⟨hprogram, hdepth, hflags, herr, -, htable⟩ := h
  refine ⟨hprogram, hdepth, hflags, ?_, fun _ => rfl, htable⟩
  simpa [hrun] using herr

/-- A fault taken in a Running state keeps the invariant (60_exceptions.md R132). -/
theorem inv_enterFault {s : State} (k : FaultKind) (info : FaultInfo)
    (hrun : s.runState = .running) (h : s.Inv) : (enterFault k info s).Inv :=
  (Effect.faulted (.nop .none) k info).inv_keeps hrun h

end Sys2Proof.Machine

section

open Sys2Proof Sys2Proof.Machine

/-- Settles O3: the three ways a step goes, and for an instruction the cases of its `Effect`. -/
theorem stepKeepsInvariant : Obligations.StepKeepsInvariant := by
  intro s t hinv hstep
  obtain ⟨hrun, ⟨-, rfl⟩ | ⟨bytes, -, rfl⟩ | ⟨i, -, hexec⟩⟩ := step_next_cases hstep
  · exact inv_implicitHalt hrun hinv
  · exact inv_enterFault _ _ hrun hinv
  · exact (effect_of_exec hexec).inv_keeps hrun hinv

/-- Settles O2: each clause of the invariant evaluates at reset. -/
theorem resetHasInvariant : Obligations.ResetHasInvariant := by
  unfold Obligations.ResetHasInvariant
  decide

/-- Settles O51: the frame lemmas of `Effect`. -/
theorem instructionFrame : Obligations.InstructionFrame := by
  intro i s t hexec
  have e := effect_of_exec hexec
  obtain ⟨hlength, hprogram, htable, hlabels, hpath, hdepth⟩ := e.sameLaunch
  refine ⟨fun a => by rw [hprogram], hlength, htable, hlabels, hpath, hdepth, fun hne => ?_,
    fun hne => ?_, fun hne => ?_, fun hne => ?_, fun hne => ?_, fun hne => ?_⟩
  · obtain h | ⟨o, -, -, hi, -⟩ := e.flags_cases
    · exact absurd h hne
    · exact ⟨o, hi⟩
  · obtain ⟨-, -, h⟩ | ⟨-, -, h⟩ | ⟨hi, -⟩ := e.status_cases
    · exact absurd h hne
    · exact absurd h hne
    · exact hi
  · obtain h | ⟨o, -, hi, -⟩ := e.out_cases
    · exact absurd h hne
    · exact ⟨o, hi⟩
  · exact e.hostDraw_cases.resolve_left hne
  · obtain ⟨-, h, -⟩ | ⟨h, -⟩ | ⟨-, -, h, -⟩ := e.status_cases
    · exact absurd h hne
    · exact h
    · exact absurd h hne
  · obtain ⟨h, -⟩ | ⟨h, -⟩ | ⟨hi, -⟩ := e.status_cases
    · exact absurd h hne
    · exact .inl h
    · exact .inr hi

/-- Settles O56: only the effect of a fetched `dmp` writes the output. -/
theorem outputGrowsOnlyByDmp : Obligations.OutputGrowsOnlyByDmp := by
  refine ⟨rfl, fun s t hstep => ?_⟩
  obtain ⟨-, ⟨-, rfl⟩ | ⟨bytes, -, rfl⟩ | ⟨i, hfetch, hexec⟩⟩ := step_next_cases hstep
  · exact .inl rfl
  · exact .inl rfl
  · obtain h | ⟨o, w, rfl, hw, hout⟩ := (effect_of_exec hexec).out_cases
    · exact .inl h
    · exact .inr ⟨o, w, hfetch, hw, hout⟩

/-- Settles O57: only the effect of a fetched `halt` writes the halt flag. -/
theorem haltFlagOnlyByHalt : Obligations.HaltFlagOnlyByHalt := by
  refine ⟨rfl, fun s t hstep => ?_⟩
  obtain ⟨-, ⟨-, rfl⟩ | ⟨bytes, -, rfl⟩ | ⟨i, hfetch, hexec⟩⟩ := step_next_cases hstep
  · exact .inl rfl
  · exact .inl rfl
  · obtain ⟨-, -, h⟩ | ⟨-, -, h⟩ | ⟨⟨o, rfl⟩, -, -, h⟩ := (effect_of_exec hexec).status_cases
    · exact .inl h
    · exact .inl h
    · exact .inr ⟨h, o, hfetch⟩

end

/-! ## The stack: the words an instruction removes and adds -/

namespace Sys2Proof.Machine

/-- A jump moves no word (10_state.md R13). -/
theorem stackUse_of_jump {i : Instr} (h : (∃ o, i = .jmp o) ∨ isCondJump i = true) :
    stackUse i = some (0, 0) := by
  obtain ⟨o, rfl⟩ | h := h
  · rfl
  · cases i <;> simp only [isCondJump, Bool.false_eq_true] at h <;> rfl

/-- An instruction that does not move words leaves the stack as R13's table says. -/
theorem stackMoves_of_none {s t : State} {removed added : Nat}
    (use : some (0, 0) = some (removed, added)) (h : t.stack = s.stack) :
    removed ≤ s.stack.length ∧
      ∃ new : List Word, new.length = added ∧ t.stack = new ++ s.stack.drop removed := by
  cases use
  exact ⟨Nat.zero_le _, [], rfl, h⟩

/-- An instruction other than `native` takes a fault, or removes and adds the words of R13's
table. -/
theorem Effect.stack_cases {s t : State} {i : Instr} {removed added : Nat} (e : Effect s i t)
    (use : stackUse i = some (removed, added)) :
    (∃ k info, t = enterFault k info s) ∨
      (removed ≤ s.stack.length ∧
        ∃ new : List Word, new.length = added ∧ t.stack = new ++ s.stack.drop removed) := by
  cases e with
  | faulted i k info => exact .inl ⟨k, info, rfl⟩
  | stacked i r new use' moves notCmp enough fits =>
    cases use'.symm.trans use
    exact .inr ⟨enough, new, rfl, rfl⟩
  | compared o a b x y rest stack_eq =>
    cases use
    exact .inr ⟨by simp [stack_eq], [], rfl, by simp [stack_eq]⟩
  | output o w rest stack_eq => exact .inr (stackMoves_of_none use rfl)
  | jumped i target jump has => exact .inr (stackMoves_of_none (stackUse_of_jump jump ▸ use) rfl)
  | advanced i quiet =>
    obtain ⟨o, rfl⟩ | ⟨o, rfl⟩ | ⟨hc, -⟩ := quiet
    · exact .inr (stackMoves_of_none use rfl)
    · exact .inr (stackMoves_of_none use rfl)
    · exact .inr (stackMoves_of_none (stackUse_of_jump (.inr hc) ▸ use) rfl)
  | halted o => exact .inr (stackMoves_of_none use rfl)
  | answered o stack => cases use
  | waiting o => cases use

end Sys2Proof.Machine

section

open Sys2Proof Sys2Proof.Machine

/-- Settles O52: by the cases of `Effect`; a fault's entry is `State.faultedBy` by definition. -/
theorem onlyTheTopOfTheStackMoves : Obligations.OnlyTheTopOfTheStackMoves :=
  fun _ _ _ _ _ use hexec => (effect_of_exec hexec).stack_cases use

end

/-! ## The flags register unit -/

namespace Sys2Proof.Machine

/-- A flag's mask has that flag's bit only (10_state.md R16). -/
theorem getLsbD_flagMask (j k : Flag) :
    (1#6 <<< flagBit k).getLsbD (flagBit j) = decide (j = k) := by
  cases j <;> cases k <;> rfl

theorem testFlag_setFlag (j k : Flag) (f : BitVec 6) :
    testFlag j (setFlag k f) = (testFlag j f || decide (j = k)) := by
  rw [testFlag, setFlag, BitVec.getLsbD_or, getLsbD_flagMask, testFlag]

theorem testFlag_resetFlag (j k : Flag) (f : BitVec 6) :
    testFlag j (resetFlag k f) = (testFlag j f && !decide (j = k)) := by
  have hj : flagBit j < 6 := by cases j <;> decide
  rw [testFlag, resetFlag, BitVec.getLsbD_and, BitVec.getLsbD_not, getLsbD_flagMask,
    decide_eq_true hj, Bool.true_and, testFlag]

end Sys2Proof.Machine

section

open Sys2Proof Sys2Proof.Machine

/-- Settles O19: what `test` reads after `set` and after `reset`, for equal and for other flags. -/
theorem flagOperationsAreIndependent : Obligations.FlagOperationsAreIndependent := by
  intro j k f
  refine ⟨?_, ?_, fun hne => ⟨?_, ?_⟩⟩
  · simp [testFlag_setFlag]
  · simp [testFlag_resetFlag]
  · simp [testFlag_setFlag, hne]
  · simp [testFlag_resetFlag, hne]

end

/-! ## Tagged values as numbers -/

namespace Sys2Proof.Machine

theorem toNat_expField (w : Word) : (expField w).toNat = w.toNat / 2 ^ 52 % 2 ^ 11 := by
  rw [expField, BitVec.extractLsb'_toNat, Nat.shiftRight_eq_div_pow]

theorem toNat_mantField (w : Word) : (mantField w).toNat = w.toNat % 2 ^ 52 := by
  rw [mantField, BitVec.extractLsb'_toNat, Nat.shiftRight_zero]

theorem toNat_tagField (w : Word) : (tagField w).toNat = w.toNat / 2 ^ 48 % 16 := by
  rw [tagField, BitVec.extractLsb'_toNat, Nat.shiftRight_eq_div_pow]

/-- The reserved tagging pattern (10_state.md R26): exponent all ones, fraction not zero. -/
theorem isReserved_iff (w : Word) :
    isReserved w = true ↔ w.toNat / 2 ^ 52 % 2 ^ 11 = 0x7FF ∧ w.toNat % 2 ^ 52 ≠ 0 := by
  rw [← toNat_expField, ← toNat_mantField, isReserved, Bool.and_eq_true, beq_iff_eq, bne_iff_ne,
    Ne, ← BitVec.toNat_inj, ← BitVec.toNat_inj]
  rfl

theorem tagField_eq_iff (w : Word) (tag : BitVec 4) :
    tagField w = tag ↔ w.toNat / 2 ^ 48 % 16 = tag.toNat := by
  rw [← toNat_tagField, BitVec.toNat_inj]

/-- Appended bits as a number: the high part, then the low part. -/
theorem toNat_append_eq_add {m n : Nat} (x : BitVec m) (y : BitVec n) :
    (x ++ y).toNat = x.toNat * 2 ^ n + y.toNat := by
  rw [BitVec.toNat_append, ← Nat.shiftLeft_add_eq_or_of_lt y.isLt, Nat.shiftLeft_eq]

/-- The box primitive as a number (10_state.md R30). -/
theorem toNat_box (t : BitVec 4) (neg : Bool) (m : Nat) :
    (box t neg m).toNat = (neg.toNat * 2 ^ 15 + 0x7FF0 + t.toNat) * 2 ^ 48 + m % 2 ^ 48 := by
  have e : (box t neg m).toNat =
    (BitVec.ofBool neg ++ 0x7FF#11 ++ t ++ BitVec.ofNat 48 m).toNat := rfl
  rw [e]
  simp only [toNat_append_eq_add, BitVec.toNat_ofBool, BitVec.toNat_ofNat]
  omega

theorem toNat_signed63 (neg : Bool) {bits : Nat} (h : bits < 2 ^ 63) :
    (signed63 neg bits).toNat = neg.toNat * 2 ^ 63 + bits := by
  have e : (signed63 neg bits).toNat = (BitVec.ofBool neg ++ BitVec.ofNat 63 bits).toNat := rfl
  rw [e, toNat_append_eq_add, BitVec.toNat_ofBool, BitVec.toNat_ofNat, Nat.mod_eq_of_lt h]

theorem kind_eq_float_iff (w : Word) : kind w = .float ↔ isReserved w = false := by
  unfold kind
  cases isReserved w
  · simp
  · simp only [Bool.not_true, Bool.false_eq_true, if_false, Bool.true_eq_false, iff_false]
    split_ifs <;> decide

/-- A signed magnitude of bits up to an infinity's is a double, not a NaN. -/
theorem kind_signed63 (neg : Bool) {bits : Nat} (h : bits ≤ infBits) :
    kind (signed63 neg bits) = .float := by
  have hbits : bits ≤ 0x7FF * 2 ^ 52 := h
  have hsign : neg.toNat ≤ 1 := Bool.toNat_le neg
  rw [kind_eq_float_iff, ← Bool.not_eq_true, isReserved_iff, toNat_signed63 neg (by omega)]
  omega

/-! ### Canonical words (10_state.md R45) -/

theorem isCanonical_of_float {w : Word} (h : kind w = .float) : isCanonical w = true := by
  rw [isCanonical, h]

theorem isCanonical_packInt (r : Int) : isCanonical (packInt r) = true := by
  have e : isCanonical (packInt r) =
      !((decide (r < 0) && r.natAbs % 2 ^ 48 != 0) && BitVec.ofNat 48 r.natAbs == 0#48) := by
    rw [isCanonical, packInt, kind_box_int64, signField_box, payField_box]
  have zero : (BitVec.ofNat 48 r.natAbs == 0#48) = (r.natAbs % 2 ^ 48 == 0) := by
    rw [Bool.eq_iff_iff, beq_iff_eq, beq_iff_eq, ← BitVec.toNat_inj, BitVec.toNat_ofNat]
    rfl
  rw [e, zero, bne]
  cases decide (r < 0) <;> cases r.natAbs % 2 ^ 48 == 0 <;> rfl

theorem isCanonical_box_uint64 (m : Nat) : isCanonical (box tagUInt64 false m) = true := by
  rw [isCanonical, kind_box_uint64, signField_box]
  rfl

theorem isCanonical_box_str (m : Nat) : isCanonical (box tagStr false m) = true := by
  rw [isCanonical, kind_box_str, signField_box]
  rfl

theorem isCanonical_box_byte {m : Nat} (h : m < 2 ^ 8) :
    isCanonical (box tagByte false m) = true := by
  have high : (box tagByte false m).extractLsb' 8 40 = 0#40 := by
    rw [← BitVec.toNat_inj, BitVec.extractLsb'_toNat, Nat.shiftRight_eq_div_pow, toNat_box]
    have tag : tagByte.toNat = 4 := rfl
    have zero : (0#40).toNat = 0 := rfl
    rw [tag, zero, Bool.toNat_false]
    omega
  rw [isCanonical, kind_box_byte, signField_box, high]
  rfl

/-- Every packed result is canonical (42_arithmetic.md R109). -/
theorem isCanonical_pack (k : IntKind) (r : Int) : isCanonical (pack k r) = true := by
  cases k with
  | int64 => exact isCanonical_packInt r
  | uint64 => exact isCanonical_box_uint64 _
  | byte => exact isCanonical_box_byte (by omega)

/-! ### What the accessors read -/

/-- The integer family reads a word as Int64 exactly when `asInt64` does. -/
theorem asInteger_eq_int64_iff (w : Word) (x : Int) :
    asInteger w = some (.int64, x) ↔ asInt64 w = some x := by
  unfold asInteger asInt64
  cases kind w <;> simp

/-- The integer family reads a word as UInt64 exactly when `asUInt64` does. -/
theorem asInteger_eq_uint64_iff (w : Word) (x : Nat) :
    asInteger w = some (.uint64, (x : Int)) ↔ asUInt64 w = some x := by
  unfold asInteger asUInt64
  cases kind w <;> simp

/-- The integer family reads a word as Byte exactly when `asByte` does. -/
theorem asInteger_eq_byte_iff (w : Word) (b : Byte) :
    asInteger w = some (.byte, (b.toNat : Int)) ↔ asByte w = some b := by
  unfold asInteger asByte
  cases kind w <;> simp [BitVec.toNat_inj, -BitVec.extractLsb'_toNat]

theorem asInt64_packInt (r : Int) :
    asInt64 (packInt r) =
      some (if r < 0 then -((r.natAbs % 2 ^ 48 : Nat) : Int) else ((r.natAbs % 2 ^ 48 : Nat) : Int)) :=
  (asInteger_eq_int64_iff _ _).mp (asInteger_packInt r)

theorem asUInt64_packUInt (r : Int) : asUInt64 (packUInt r) = some (r % 2 ^ 48).toNat := by
  rw [← asInteger_eq_uint64_iff, asInteger_packUInt, Int.toNat_of_nonneg (by omega)]

theorem asByte_packByte (r : Int) : asByte (packByte r) = some (BitVec.ofInt 8 r) := by
  have e : ((BitVec.ofInt 8 r).toNat : Int) = r % 2 ^ 8 := by
    rw [BitVec.toNat_ofInt, Int.toNat_of_nonneg (by omega)]
    rfl
  rw [← asInteger_eq_byte_iff, asInteger_packByte, e]

theorem asUInt64_fromUInt64 (u : Word) : asUInt64 (fromUInt64 u) = some (u.toNat % 2 ^ 48) := by
  simp [asUInt64, fromUInt64]

theorem asByte_fromByte (b : Byte) : asByte (fromByte b) = some b := by
  simp [asByte, fromByte, lowByte_box]

theorem asStrLen_fromStrLen (n : Nat) : asStrLen (fromStrLen n) = some (n % 2 ^ 48) := by
  simp [asStrLen, fromStrLen]

/-- On 64-bit values the packer is the encoder (10_state.md R33, R43). -/
theorem packUInt_toNat (u : Word) : packUInt u.toNat = fromUInt64 u := by
  rw [← BitVec.toNat_inj, packUInt, fromUInt64, toNat_box, toNat_box]
  omega

end Sys2Proof.Machine

section

open Sys2Proof Sys2Proof.Machine Sys2Proof.Claims

/-- Settles O13: the reserved pattern and the tag as numbers, in the order of `kind`'s tests. -/
theorem kindFromFields : Obligations.KindFromFields := by
  intro w
  simp only [kind, Bool.not_eq_true', ← Bool.not_eq_true, isReserved_iff, tagField_eq_iff]
  rfl

/-- Settles O14: the accessors read an encoded value modulo 2^48, which leaves one in range as it
is; the kinds are those of the boxes. -/
theorem taggedValueLaws : Obligations.TaggedValueLaws := by
  refine ⟨fun i hi => ?_, fun u hu => ?_, asByte_fromByte, fun n hn => ?_, fun f hf => ?_,
    fun _ => kind_box_int64 _ _, fun _ => kind_box_uint64 _ _, fun _ => kind_box_byte _ _,
    fun _ => kind_box_str _ _⟩
  · rw [fromInt64, asInt64_packInt, Nat.mod_eq_of_lt hi, Option.some_inj]
    omega
  · rw [asUInt64_fromUInt64, Nat.mod_eq_of_lt hu]
  · rw [asStrLen_fromStrLen, Nat.mod_eq_of_lt hn]
  · have hk : kind f = .float := (kind_eq_float_iff f).mpr hf
    exact ⟨hk, rfl, if_pos hk⟩

/-- Settles O15: each encoder is a box, whose number and canonicity are known. -/
theorem encodersGiveCanonicalWords : Obligations.EncodersGiveCanonicalWords := by
  refine ⟨fun i => ⟨?_, isCanonical_packInt _⟩, fun u => ⟨?_, isCanonical_box_uint64 _⟩,
    fun n => ⟨?_, isCanonical_box_str _⟩, fun b => ⟨?_, isCanonical_box_byte b.isLt⟩⟩
  · rw [fromInt64, packInt, toNat_box]
    by_cases h : i.toInt < 0 ∧ i.toInt.natAbs % 2 ^ 48 ≠ 0
    · have hs : (decide (i.toInt < 0) && i.toInt.natAbs % 2 ^ 48 != 0) = true := by
        simpa using h
      rw [if_pos h, hs]
      rfl
    · have hs : (decide (i.toInt < 0) && i.toInt.natAbs % 2 ^ 48 != 0) = false := by
        simpa using h
      rw [if_neg h, hs]
      rfl
  · rw [fromUInt64, toNat_box]
    rfl
  · rw [fromStrLen, toNat_box]
    rfl
  · rw [fromByte, toNat_box, Nat.mod_eq_of_lt (by omega)]
    rfl

/-- Settles O16: what the integer family reads from a packed result, per accessor. -/
theorem packedResultsReadBack : Obligations.PackedResultsReadBack :=
  ⟨asInt64_packInt, asUInt64_packUInt, asByte_packByte, fun _ => rfl, packUInt_toNat⟩

end

/-! ## The words the integer instructions leave -/

namespace Sys2Proof.Machine

theorem kind_infWord (neg : Bool) : kind (infWord neg) = .float := kind_signed63 neg le_rfl

/-- A sum with a finite double is a double, never a NaN (42_arithmetic.md R97). -/
theorem fadd64_finite (x : FloatVal) (neg : Bool) (mag : Nat) :
    ∃ w, fadd64 x (.finite neg mag) = some w ∧ kind w = .float := by
  cases x with
  | infinite s => exact ⟨infWord s, rfl, kind_infWord s⟩
  | finite s m =>
    simp only [fadd64]
    split
    · exact ⟨_, rfl, kind_signed63 _ (Nat.zero_le _)⟩
    · exact ⟨_, rfl, kind_signed63 _ (Nat.min_le_left _ _)⟩

/-- A word plus or minus one is canonical when the float operation answers a double. -/
theorem isCanonical_stepWord {fop : FloatVal → FloatVal → Option Word} {iop : Int → Int}
    (hop : ∀ x, ∃ v, fop x floatOne = some v ∧ kind v = .float) {w v : Word}
    (h : stepWord fop iop w = some v) : isCanonical v = true := by
  unfold stepWord at h
  split at h
  · rename_i x _
    obtain ⟨u, hu, hk⟩ := hop x
    rw [hu] at h
    cases h
    exact isCanonical_of_float hk
  · cases h
    exact isCanonical_pack _ _
  · cases h

/-- An integer instruction faults, or leaves a packed result on top. -/
theorem intBinary_next {op : Int → Int → Option Int} {s t : State}
    (h : intBinary op s = .next t) :
    (∃ k info, t = enterFault k info s) ∨ ∃ k r rest, t.stack = pack k r :: rest := by
  unfold intBinary at h
  rcases withTwo_cases s _ with ⟨-, hf⟩ | ⟨b, a, rest, -, hf⟩ <;> rw [hf] at h
  · cases h
    exact .inl ⟨_, _, rfl⟩
  · split at h
    · rename_i k x y _
      cases hr : op x y with
      | none =>
        rw [hr] at h
        cases h
        exact .inl ⟨_, _, rfl⟩
      | some r =>
        rw [hr] at h
        cases h
        exact .inr ⟨k, r, rest, rfl⟩
    · cases h
      exact .inl ⟨_, _, rfl⟩

/-- `inc` or `dec` faults, or leaves the changed word on top. -/
theorem stepTop_next {f : Word → Option Word} {s t : State} (h : stepTop f s = .next t) :
    (∃ k info, t = enterFault k info s) ∨ ∃ w v rest, f w = some v ∧ t.stack = v :: rest := by
  unfold stepTop at h
  rcases withTop_cases s _ with ⟨-, hf⟩ | ⟨w, rest, -, hf⟩ <;> rw [hf] at h
  · cases h
    exact .inl ⟨_, _, rfl⟩
  · split at h
    · rename_i v hv
      cases h
      exact .inr ⟨w, v, rest, hv, rfl⟩
    · cases h
      exact .inl ⟨_, _, rfl⟩

/-- The new top word of a stack that changed is canonical. -/
def LeavesCanonical (s t : State) : Prop :=
  ∀ w rest, t.stack ≠ s.stack → t.stack = w :: rest → isCanonical w = true

theorem leavesCanonical_enterFault (k : FaultKind) (info : FaultInfo) (s : State) :
    LeavesCanonical s (enterFault k info s) :=
  fun _ _ hne _ => absurd rfl hne

theorem leavesCanonical_of_top {s t : State} {v : Word} {rest : List Word}
    (h : t.stack = v :: rest) (hv : isCanonical v = true) : LeavesCanonical s t := by
  intro w rest' _ hw
  cases h.symm.trans hw
  exact hv

theorem leavesCanonical_intBinary {op : Int → Int → Option Int} {s t : State}
    (h : intBinary op s = .next t) : LeavesCanonical s t := by
  obtain ⟨k, info, rfl⟩ | ⟨k, r, rest, ht⟩ := intBinary_next h
  · exact leavesCanonical_enterFault k info s
  · exact leavesCanonical_of_top ht (isCanonical_pack k r)

theorem leavesCanonical_stepTop {fop : FloatVal → FloatVal → Option Word} {iop : Int → Int}
    {s t : State} (hop : ∀ x, ∃ v, fop x floatOne = some v ∧ kind v = .float)
    (h : stepTop (stepWord fop iop) s = .next t) : LeavesCanonical s t := by
  obtain ⟨k, info, rfl⟩ | ⟨w, v, rest, hv, ht⟩ := stepTop_next h
  · exact leavesCanonical_enterFault k info s
  · exact leavesCanonical_of_top ht (isCanonical_stepWord hop hv)

end Sys2Proof.Machine

section

open Sys2Proof Sys2Proof.Machine

/-- Settles O17: the four ALU instructions push a packed result; inc and dec push one too, or a sum
with 1.0 or -1.0, which is a double. -/
theorem integerResultsAreCanonical : Obligations.IntegerResultsAreCanonical := by
  intro i o s t w rest hi hexec hne ht
  suffices h : LeavesCanonical s t from h w rest hne ht
  simp only [List.mem_cons, List.not_mem_nil, or_false] at hi
  obtain rfl | rfl | rfl | rfl | rfl | rfl := hi
  · exact leavesCanonical_intBinary hexec
  · exact leavesCanonical_intBinary hexec
  · exact leavesCanonical_intBinary hexec
  · exact leavesCanonical_intBinary hexec
  · exact leavesCanonical_stepTop (fun x => fadd64_finite x _ _) hexec
  · exact leavesCanonical_stepTop (fop := fsub64) (fun x => fadd64_finite x _ _) hexec

end

/-! ## Parts of the state that an instruction does not read

`Unread g` says that the change `g` of a state is invisible to the shared operations; an instruction
then commutes with `g`. Replacing the flags is such a change, and so is replacing the label map. -/

namespace Sys2Proof.Machine

/-- A result with its next state changed. -/
def mapNext (g : State → State) : Result → Result
  | .next t => .next (g t)
  | .fault r => .fault r
  | .refused r => .refused r

/-- The change `g` leaves what the shared operations read, and commutes with what they write. -/
structure Unread (g : State → State) : Prop where
  stack : ∀ s, (g s).stack = s.stack
  ip : ∀ s, (g s).ip = s.ip
  out : ∀ s, (g s).out = s.out
  nativeTable : ∀ s, (g s).nativeTable = s.nativeTable
  diagPath : ∀ s, (g s).diagPath = s.diagPath
  stackDepth : ∀ s, (g s).stackDepth = s.stackDepth
  hostDraw : ∀ s, (g s).hostDraw = s.hostDraw
  withStack : ∀ s v, (g s).withStack v = g (s.withStack v)
  withIp : ∀ s v, (g s).withIp v = g (s.withIp v)
  withHaltFlag : ∀ s v, (g s).withHaltFlag v = g (s.withHaltFlag v)
  withRunState : ∀ s v, (g s).withRunState v = g (s.withRunState v)
  withOut : ∀ s v, (g s).withOut v = g (s.withOut v)
  withErr : ∀ s v, (g s).withErr v = g (s.withErr v)
  withHostDraw : ∀ s v, (g s).withHostDraw v = g (s.withHostDraw v)

/-- The change `g` leaves the flags too, which `cmp` and the conditional jumps use. -/
structure UnreadFlags (g : State → State) : Prop where
  flags : ∀ s, (g s).flags = s.flags
  withFlags : ∀ s v, (g s).withFlags v = g (s.withFlags v)

theorem unread_withFlags (f : BitVec 6) : Unread fun s => s.withFlags f := by
  constructor <;> intros <;> rfl

theorem unread_labelMap (m : List (List Byte × Word)) : Unread fun s => { s with labelMap := m } := by
  constructor <;> intros <;> rfl

theorem unreadFlags_labelMap (m : List (List Byte × Word)) :
    UnreadFlags fun s => { s with labelMap := m } := by
  constructor <;> intros <;> rfl

namespace Unread

variable {g : State → State} (hg : Unread g)

include hg

/-! ### The shared operations -/

theorem advance_comm (s : State) : advance (g s) = g (advance s) := by
  rw [advance, hg.ip, hg.withIp, advance]

theorem enterFault_comm (k : FaultKind) (info : FaultInfo) (s : State) :
    enterFault k info (g s) = g (enterFault k info s) := by
  rw [enterFault, hg.withRunState, hg.withErr, hg.ip, hg.diagPath, enterFault]

theorem raise_comm (k : FaultKind) (info : FaultInfo) (s : State) :
    raise k info (g s) = mapNext g (raise k info s) := by
  rw [raise_eq, raise_eq, hg.enterFault_comm, mapNext]

theorem completeWith_comm (stack : List Word) (s : State) :
    completeWith stack (g s) = mapNext g (completeWith stack s) := by
  rw [completeWith_eq, completeWith_eq, hg.withStack, hg.advance_comm, mapNext]

theorem withTop_comm (s : State) {body body' : Word → List Word → Result}
    (hbody : ∀ w rest, body' w rest = mapNext g (body w rest)) :
    withTop (g s) body' = mapNext g (withTop s body) := by
  rcases hs : s.stack with _ | ⟨w, rest⟩ <;> simp only [withTop, hg.stack, hs]
  · exact hg.raise_comm _ _ s
  · exact hbody w rest

theorem withTwo_comm (s : State) {body body' : Word → Word → List Word → Result}
    (hbody : ∀ a b rest, body' a b rest = mapNext g (body a b rest)) :
    withTwo (g s) body' = mapNext g (withTwo s body) := by
  rcases hs : s.stack with _ | ⟨b, _ | ⟨a, rest⟩⟩ <;> simp only [withTwo, hg.stack, hs]
  · exact hg.raise_comm _ _ s
  · exact hg.raise_comm _ _ s
  · exact hbody a b rest

theorem finishAlu_comm (rest : List Word) (r : Option Word) (s : State) :
    finishAlu rest r (g s) = mapNext g (finishAlu rest r s) := by
  cases r with
  | none => exact hg.raise_comm _ _ s
  | some w => exact hg.completeWith_comm _ s

theorem pushWord_comm (w : Word) (s : State) :
    pushWord w (g s) = mapNext g (pushWord w s) := by
  have full : stackFull (g s) = stackFull s := by
    rw [Bool.eq_iff_iff, stackFull_iff, stackFull_iff, hg.stackDepth, hg.stack]
  rw [pushWord, pushWord, full, hg.stack]
  split
  · exact hg.raise_comm _ _ s
  · exact hg.completeWith_comm _ s

theorem jumpWhen_comm (taken : Bool) (o : Operand) (s : State) :
    jumpWhen taken o (g s) = mapNext g (jumpWhen taken o s) := by
  unfold jumpWhen
  split
  · exact hg.raise_comm _ _ s
  · rw [hg.withIp, hg.advance_comm, ← apply_ite g, mapNext]

/-! ### The instructions -/

theorem floatBinary_comm (op : FloatVal → FloatVal → Option Word) (s : State) :
    floatBinary op (g s) = mapNext g (floatBinary op s) := by
  refine hg.withTwo_comm s fun a b rest => ?_
  split
  · exact hg.finishAlu_comm _ _ s
  · exact hg.raise_comm _ _ s

theorem intBinary_comm (op : Int → Int → Option Int) (s : State) :
    intBinary op (g s) = mapNext g (intBinary op s) := by
  refine hg.withTwo_comm s fun a b rest => ?_
  split
  · exact hg.finishAlu_comm _ _ s
  · exact hg.raise_comm _ _ s

theorem stepTop_comm (f : Word → Option Word) (s : State) :
    stepTop f (g s) = mapNext g (stepTop f s) := by
  refine hg.withTop_comm s fun w rest => ?_
  split
  · exact hg.completeWith_comm _ s
  · exact hg.raise_comm _ _ s

theorem execPush_comm (o : Operand) (s : State) :
    execPush o (g s) = mapNext g (execPush o s) := by
  unfold execPush
  split
  · exact hg.raise_comm _ _ s
  · exact hg.pushWord_comm _ s

theorem execDmp_comm (o : Operand) (s : State) :
    execDmp o (g s) = mapNext g (execDmp o s) := by
  refine hg.withTop_comm s fun w rest => ?_
  rw [hg.out, hg.withOut, hg.advance_comm, mapNext]

theorem applyAnswer_comm (key : NativeKey) (ans : HostAnswer) (s : State) :
    applyAnswer key ans (g s) = mapNext g (applyAnswer key ans s) := by
  cases ans with
  | ret stack =>
    rw [applyAnswer, hg.stackDepth, hg.hostDraw, hg.withHostDraw, hg.completeWith_comm, applyAnswer]
  | fail => exact hg.raise_comm _ _ s
  | never => rfl

theorem execNative_comm (o : Operand) (s : State) :
    execNative o (g s) = mapNext g (execNative o s) := by
  rw [execNative, execNative, hg.nativeTable, hg.hostDraw, hg.stack]
  split
  · exact hg.raise_comm _ _ s
  · split
    · exact hg.raise_comm _ _ s
    · exact hg.applyAnswer_comm _ _ s

theorem execHalt_comm (o : Operand) (s : State) :
    execHalt o (g s) = mapNext g (execHalt o s) := by
  rw [execHalt, execHalt, hg.advance_comm, hg.withHaltFlag, hg.withRunState, mapNext]

theorem advanced_comm (s : State) :
    (.next (advance (g s)) : Result) = mapNext g (.next (advance s)) := by
  rw [hg.advance_comm, mapNext]

/-- An instruction that does not use the flags commutes with a change that it does not read. -/
theorem exec_comm {i : Instr} (hjump : isCondJump i = false) (hcmp : ∀ o, i ≠ .cmp o) (s : State) :
    exec i (g s) = mapNext g (exec i s) := by
  cases i with
  | push o => exact hg.execPush_comm o s
  | pop o => exact hg.withTop_comm s fun _ _ => hg.completeWith_comm _ s
  | fadd o => exact hg.floatBinary_comm _ s
  | fsub o => exact hg.floatBinary_comm _ s
  | fmul o => exact hg.floatBinary_comm _ s
  | fdiv o => exact hg.floatBinary_comm _ s
  | iadd o => exact hg.intBinary_comm _ s
  | isub o => exact hg.intBinary_comm _ s
  | imul o => exact hg.intBinary_comm _ s
  | idiv o => exact hg.intBinary_comm _ s
  | inc o => exact hg.stepTop_comm _ s
  | dec o => exact hg.stepTop_comm _ s
  | swap o => exact hg.withTwo_comm s fun _ _ _ => hg.completeWith_comm _ s
  | dup o => exact hg.withTop_comm s fun _ _ => hg.pushWord_comm _ s
  | cmp o => exact absurd rfl (hcmp o)
  | jmp o => exact hg.jumpWhen_comm _ o s
  | je o => cases hjump
  | jne o => cases hjump
  | jg o => cases hjump
  | jl o => cases hjump
  | jge o => cases hjump
  | jle o => cases hjump
  | dmp o => exact hg.execDmp_comm o s
  | nop o => exact hg.advanced_comm s
  | label o => exact hg.advanced_comm s
  | native o => exact hg.execNative_comm o s
  | halt o => exact hg.execHalt_comm o s

theorem condJump_comm (hf : UnreadFlags g) (k : Flag) (o : Operand) (s : State) :
    condJump k o (g s) = mapNext g (condJump k o s) := by
  rw [condJump, hf.flags, hg.jumpWhen_comm, condJump]

theorem execCmp_comm (hf : UnreadFlags g) (o : Operand) (s : State) :
    execCmp o (g s) = mapNext g (execCmp o s) := by
  refine hg.withTwo_comm s fun a b rest => ?_
  split
  · rw [hf.flags, hf.withFlags, hg.completeWith_comm]
  · exact hg.raise_comm _ _ s

/-- Every instruction commutes with a change that leaves the flags too. -/
theorem exec_comm_of_flags (hf : UnreadFlags g) (i : Instr) (s : State) :
    exec i (g s) = mapNext g (exec i s) := by
  by_cases hcmp : ∃ o, i = .cmp o
  · obtain ⟨o, rfl⟩ := hcmp
    exact hg.execCmp_comm hf o s
  · cases hjump : isCondJump i with
    | false => exact hg.exec_comm hjump (fun o ho => hcmp ⟨o, ho⟩) s
    | true =>
      cases i <;> simp only [isCondJump, Bool.false_eq_true] at hjump <;>
        exact hg.condJump_comm hf _ _ s

/-- A step commutes with a change that leaves the flags, the run state and the fetch too. -/
theorem step_comm (hf : UnreadFlags g) (s : State) (hrun : (g s).runState = s.runState)
    (hfetch : fetch (g s) = fetch s) : step (g s) = mapNext g (step s) := by
  unfold step
  rw [hrun, hfetch]
  cases s.runState with
  | running =>
    rcases fetch s with _ | bytes | i
    · exact congrArg Host.Outcome.next (hg.withRunState s .halted)
    · exact hg.raise_comm _ _ s
    · exact hg.exec_comm_of_flags hf i s
  | halted => rfl
  | faulted => rfl

end Unread

/-- `cmp` with other flags: a fault keeps those flags, and a completing `cmp` forgets them
(43_compare.md R110, R112). -/
theorem execCmp_withFlags {o : Operand} {s t : State} (f : BitVec 6)
    (h : execCmp o s = .next t) :
    (t.stack = s.stack ∧ execCmp o (s.withFlags f) = .next (t.withFlags f)) ∨
      (t.stack ≠ s.stack ∧ execCmp o (s.withFlags f) = .next t) := by
  rcases hs : s.stack with _ | ⟨b, _ | ⟨a, rest⟩⟩ <;>
    simp only [execCmp, withTwo, State.withFlags_stack, hs] at h ⊢
  · cases h
    exact .inl ⟨hs, rfl⟩
  · cases h
    exact .inl ⟨hs, rfl⟩
  · cases hv : comparable a b with
    | none =>
      rw [hv] at h
      cases h
      exact .inl ⟨hs, rfl⟩
    | some p =>
      obtain ⟨x, y⟩ := p
      rw [hv] at h
      cases h
      have same : compareFlags x y f = compareFlags x y s.flags := by
        rw [compareFlags_eq, compareFlags_eq]
      refine .inr ⟨fun hlen => ?_, ?_⟩
      · have : rest.length = rest.length + 2 := congrArg List.length hlen
        omega
      · simp only [State.withFlags_flags, same]
        rfl

end Sys2Proof.Machine

section

open Sys2Proof Sys2Proof.Machine

/-- Settles O53: the other instructions commute with replacing the flags, and `cmp` is the case of
`execCmp_withFlags`. -/
theorem flagsReadOnlyByConditionalJumps : Obligations.FlagsReadOnlyByConditionalJumps := by
  intro i s t f hjump hexec
  by_cases hcmp : ∃ o, i = .cmp o
  · obtain ⟨o, rfl⟩ := hcmp
    obtain ⟨hstack, h⟩ | ⟨hstack, h⟩ := execCmp_withFlags (o := o) f hexec
    · exact ⟨fun _ => h, fun _ _ hne => absurd hstack hne⟩
    · exact ⟨fun hor => absurd (hor.resolve_left fun hno => hno o rfl) hstack, fun _ _ _ => h⟩
  · have hno : ∀ o, i ≠ .cmp o := fun o ho => hcmp ⟨o, ho⟩
    have h := (unread_withFlags f).exec_comm hjump hno s
    rw [hexec] at h
    exact ⟨fun _ => h, fun o ho _ => absurd ho (hno o)⟩

/-- Settles O54: a step commutes with replacing the label map. -/
theorem labelMapIsNeverRead : Obligations.LabelMapIsNeverRead := by
  intro s t m hstep
  have h := (unread_labelMap m).step_comm (unreadFlags_labelMap m) s rfl rfl
  rw [hstep] at h
  exact h

end

/-! ## What a placement puts in the slot at `ip`, and what the next step fetches there -/

namespace Sys2Proof.Machine

theorem length_bytesFrom (w start count : Nat) : (bytesFrom w start count).length = count := by
  induction count generalizing start with
  | zero => rfl
  | succ count ih => simp [bytesFrom, ih]

/-- A table word fills a slot. -/
theorem length_tableSlot (nbits w : Nat) : (tableSlot nbits w).length = Config.recordCapacity :=
  length_bytesFrom _ _ _

theorem getElem_programBytes (m : Memory) (a n k : Nat) (h : k < (programBytes m a n).length) :
    (programBytes m a n)[k] = programByte m (a + k) := by
  induction n generalizing a k with
  | zero => simp [programBytes] at h
  | succ n ih =>
    cases k with
    | zero => rfl
    | succ k =>
      have ha : a + 1 + k = a + (k + 1) := by omega
      simp [programBytes, ih, ha]

theorem programByte_writeBytes (m : Memory) (a k : Nat) (vs : List Byte) (h : k < vs.length) :
    programByte (Memory.writeBytes m a vs) (a + k) = vs[k] := by
  have hread : Memory.read (Memory.writeBytes m a vs) (a + k) = some vs[k] := by
    rw [Memory.read_writeBytes, dif_pos (by omega)]
    simp
  rw [programByte, hread]

/-- The bytes written read back, whatever stands after them. -/
theorem take_programBytes_writeBytes (m : Memory) (a n : Nat) (vs : List Byte)
    (h : vs.length ≤ n) : (programBytes (Memory.writeBytes m a vs) a n).take vs.length = vs := by
  apply List.ext_getElem
  · simpa [programBytes_length] using h
  · intro k _ hk
    rw [List.getElem_take, getElem_programBytes, programByte_writeBytes m a k vs hk]

/-- A stored record of a slot's length is the whole slot. -/
theorem slotRead_of_program_eq_storeSlot {s : State} {m : Memory} {i : Word} {bytes : List Byte}
    (hp : s.program = storeSlot m i bytes) (h : bytes.length = Config.recordCapacity) :
    slotRead s i = bytes :=
  calc slotRead s i
      = programBytes (Memory.writeBytes m (slotAddress i) bytes) (slotAddress i) bytes.length := by
        rw [slotRead, hp, h]; rfl
    _ = (programBytes (Memory.writeBytes m (slotAddress i) bytes) (slotAddress i)
          bytes.length).take bytes.length :=
        (List.take_of_length_le (programBytes_length _ _ _).le).symm
    _ = bytes := take_programBytes_writeBytes m _ _ bytes le_rfl

/-- Every index but 2^64 − 1 is within the length that holds it (20_memory.md R47). -/
theorem lt_lengthHolding (n : Word) {i : Word} (h : i ≠ BitVec.allOnes 64) :
    i < lengthHolding n i := by
  by_cases hlt : i < n
  · rwa [lengthHolding, if_pos hlt]
  · rw [lengthHolding, if_neg hlt, if_neg h]
    rw [← BitVec.toNat_ne_iff_ne, BitVec.toNat_allOnes] at h
    bv_omega

theorem fetch_eq_instr {s : State} {i : Instr} {k : Nat} (hip : s.ip < s.programLength)
    (hdec : decode (slotRead s s.ip) = .ok (i, k)) : fetch s = .instr i := by
  rw [fetch, if_pos hip, hdec]

theorem step_eq_exec {s : State} {i : Instr} (hrun : s.runState = .running)
    (hfetch : fetch s = .instr i) : step s = exec i s := by
  rw [step, hrun, hfetch]

theorem decodeTableWord_eq_some {nbits w : Nat} {i : Instr} (h : decodeTableWord nbits w = some i) :
    ∃ k, decode (tableSlot nbits w) = .ok (i, k) := by
  unfold decodeTableWord at h
  split at h
  case h_1 k hdec => cases h; exact ⟨k, hdec⟩
  case h_2 => cases h

section withFetchWord

variable (s : State) (nbits w : Nat)

@[simp] theorem State.withFetchWord_ip : (s.withFetchWord nbits w).ip = s.ip := rfl

@[simp] theorem State.withFetchWord_runState :
    (s.withFetchWord nbits w).runState = .running := rfl

@[simp] theorem State.withFetchWord_programLength :
    (s.withFetchWord nbits w).programLength = lengthHolding s.programLength s.ip := rfl

@[simp] theorem State.withFetchWord_program :
    (s.withFetchWord nbits w).program = storeSlot s.program s.ip (tableSlot nbits w) := rfl

theorem slotRead_withFetchWord : slotRead (s.withFetchWord nbits w) s.ip = tableSlot nbits w :=
  slotRead_of_program_eq_storeSlot (s.withFetchWord_program nbits w) (length_tableSlot nbits w)

end withFetchWord

theorem fetch_withFetchWord {s : State} {nbits w : Nat} {i : Instr}
    (hip : s.ip ≠ BitVec.allOnes 64) (hdec : decodeTableWord nbits w = some i) :
    fetch (s.withFetchWord nbits w) = .instr i := by
  obtain ⟨k, hk⟩ := decodeTableWord_eq_some hdec
  have hslot : decode (slotRead (s.withFetchWord nbits w) s.ip) = .ok (i, k) := by
    rw [slotRead_withFetchWord, hk]
  exact fetch_eq_instr (lt_lengthHolding s.programLength hip) hslot

end Sys2Proof.Machine

section

open Sys2Proof Sys2Proof.Machine

/-- Settles O58: the placed slot reads back whole, so the running state's fetch finds the
decoded instruction. -/
theorem placedInstructionIsStepped : Obligations.PlacedInstructionIsStepped := by
  intro s nbits w i hip hdec
  exact ⟨slotRead_withFetchWord s nbits w,
    step_eq_exec (s.withFetchWord_runState nbits w) (fetch_withFetchWord hip hdec)⟩

end

/-! ## The operand multiplexer -/

namespace Sys2Proof.Machine

/-- A word of kind UInt64 is its index (10_state.md R41). -/
theorem asIndex_of_asUInt64 {w : Word} {n : Nat} (h : asUInt64 w = some n) :
    asIndex w = some (BitVec.ofNat 64 n) := by
  have hk : kind w = .uint64 := by
    by_contra hne
    simp [asUInt64, hne] at h
  rw [asIndex, hk, h]
  rfl

/-- A word of kind Int64 is an index when its value is not negative (10_state.md R41). -/
theorem asIndex_of_asInt64 {w : Word} {x : Int} (h : asInt64 w = some x) :
    asIndex w = if 0 ≤ x then some (BitVec.ofInt 64 x) else none := by
  have hk : kind w = .int64 := by
    by_contra hne
    simp [asInt64, hne] at h
  rw [asIndex, hk, h]

theorem asIndex_of_kind_ne {w : Word} (hint : kind w ≠ .int64) (huint : kind w ≠ .uint64) :
    asIndex w = none := by
  unfold asIndex
  cases hk : kind w with
  | int64 => exact absurd hk hint
  | uint64 => exact absurd hk huint
  | _ => rfl

/-- A two's-complement integer is an index exactly when its top bit is clear. -/
theorem indexOfInt64_eq (i : Word) : indexOfInt64 i = if i.toNat < 2 ^ 63 then some i else none := by
  have hsign : 0 ≤ i.toInt ↔ i.toNat < 2 ^ 63 := by
    rw [BitVec.toInt_eq_toNat_cond]
    omega
  simp only [indexOfInt64, hsign]

/-- What a Value operand gives as a target and as a key (30_encoding.md R76, R77). -/
theorem target_and_key_of_value {w : Word} {index : Option Word} (h : asIndex w = index) :
    targetOf (.value w) = index ∧ nativeKeyOf (.value w) = index.map .index := by
  subst h
  exact ⟨rfl, rfl⟩

/-- What an Int64 operand gives as a target and as a key (30_encoding.md R76, R77). -/
theorem target_and_key_of_int64 {i : Word} {index : Option Word} (h : indexOfInt64 i = index) :
    targetOf (.int64 i) = index ∧ nativeKeyOf (.int64 i) = index.map .index := by
  subst h
  exact ⟨rfl, rfl⟩

end Sys2Proof.Machine

section

open Sys2Proof Sys2Proof.Machine

/-- Settles O18: the variants without a sub-case by definition, Int64 by its sign and Value by what
`asIndex` reads from the word. -/
theorem operandMultiplexer : Obligations.OperandMultiplexer := by
  refine ⟨fun _ => rfl, fun _ => rfl, fun _ => rfl, fun _ => rfl, fun _ => rfl, rfl,
    fun _ => ⟨rfl, rfl⟩, fun i hi => ?_, fun i hi => ?_, fun w n hw => ?_, fun w n hw => ?_,
    fun w x hw hx => ?_, fun w hint huint => ?_, fun _ => ⟨rfl, rfl⟩, fun _ => ⟨rfl, rfl⟩, rfl, rfl⟩
  · exact target_and_key_of_int64 (by rw [indexOfInt64_eq, if_pos hi])
  · exact target_and_key_of_int64 (by rw [indexOfInt64_eq, if_neg hi.not_gt])
  · exact target_and_key_of_value (asIndex_of_asUInt64 hw)
  · refine target_and_key_of_value ?_
    rw [asIndex_of_asInt64 hw, if_pos (Int.natCast_nonneg n), BitVec.ofInt_natCast]
  · exact target_and_key_of_value (by rw [asIndex_of_asInt64 hw, if_neg hx.not_ge])
  · exact target_and_key_of_value (asIndex_of_kind_ne hint huint)

end

/-! ## The instruction record codec -/

namespace Sys2Proof

open Machine Claims

/-! ### Eight bytes and a word -/

/-- Eight bytes, the first one the lowest, as a number (20_memory.md R51). -/
theorem toNat_leWord (b0 b1 b2 b3 b4 b5 b6 b7 : Byte) :
    (leWord b0 b1 b2 b3 b4 b5 b6 b7).toNat =
      b0.toNat + 2 ^ 8 * b1.toNat + 2 ^ 16 * b2.toNat + 2 ^ 24 * b3.toNat + 2 ^ 32 * b4.toNat +
        2 ^ 40 * b5.toNat + 2 ^ 48 * b6.toNat + 2 ^ 56 * b7.toNat := by
  have e : (leWord b0 b1 b2 b3 b4 b5 b6 b7).toNat =
    (b7 ++ b6 ++ b5 ++ b4 ++ b3 ++ b2 ++ b1 ++ b0).toNat := rfl
  rw [e]
  simp only [toNat_append_eq_add]
  omega

/-- The byte of a word at a bit position, as a number. -/
theorem toNat_byteAt (w : Word) (k : Nat) :
    (w.extractLsb' k 8).toNat = w.toNat / 2 ^ k % 2 ^ 8 := by
  rw [BitVec.extractLsb'_toNat, Nat.shiftRight_eq_div_pow]

@[simp] theorem length_leBytes (w : Word) : (leBytes w).length = 8 := rfl

theorem leBytes_leWord (b0 b1 b2 b3 b4 b5 b6 b7 : Byte) :
    leBytes (leWord b0 b1 b2 b3 b4 b5 b6 b7) = [b0, b1, b2, b3, b4, b5, b6, b7] := by
  simp only [leBytes, List.cons.injEq, ← BitVec.toNat_inj, toNat_byteAt, toNat_leWord, and_true]
  omega

theorem leWord_of_leBytes (w : Word) :
    leWord (w.extractLsb' 0 8) (w.extractLsb' 8 8) (w.extractLsb' 16 8) (w.extractLsb' 24 8)
      (w.extractLsb' 32 8) (w.extractLsb' 40 8) (w.extractLsb' 48 8) (w.extractLsb' 56 8) = w := by
  simp only [← BitVec.toNat_inj, toNat_leWord, toNat_byteAt]
  omega

/-- The model's bytes of a word are those of the statements. -/
theorem leBytes_eq_le64 (w : Word) : leBytes w = le64 w := by
  simp [leBytes, le64, ← BitVec.toNat_inj, toNat_byteAt, -BitVec.extractLsb'_toNat]

/-! ### The opcode table (30_encoding.md R68) -/

/-- An instruction's opcode byte selects it again. -/
theorem instrOfOpcode_opcodeByte (i : Instr) : Laws.OpcodeTable.Statement i := by
  cases i <;> exact ⟨_, rfl, rfl⟩

theorem opcodeByte_of_instrOfOpcode {op : Byte} {mk : Operand → Instr}
    (h : instrOfOpcode op = some mk) (o : Operand) : opcodeByte (mk o) = op := by
  rw [← BitVec.toNat_inj]
  unfold instrOfOpcode at h
  split at h <;> rename_i hop <;> cases h <;> exact hop.symm

/-- The illegal opcode bytes are 0x1B to 0xFF (30_encoding.md R79). -/
theorem instrOfOpcode_eq_none_iff (op : Byte) : instrOfOpcode op = none ↔ 0x1A < op.toNat := by
  unfold instrOfOpcode
  split
  case h_28 => simp only [imp_false, true_iff] at *; omega
  all_goals simp only [reduceCtorEq, false_iff]; omega

theorem exists_instrOfOpcode {op : Byte} (h : op.toNat ≤ 0x1A) :
    ∃ mk, instrOfOpcode op = some mk := by
  rw [← Option.ne_none_iff_exists', Ne, instrOfOpcode_eq_none_iff]
  omega

/-! ### The operand tags (30_encoding.md R64) -/

/-- The four operand tags of format W, each with the operand variant it selects. -/
inductive WordTag : Byte → (Word → Operand) → Prop where
  | value : WordTag 0#8 .value
  | int64 : WordTag 2#8 .int64
  | uint64 : WordTag 3#8 .uint64
  | float : WordTag 4#8 .float

namespace WordTag

variable {tag : Byte} {variant : Word → Operand}

theorem decodeOperand_eq (h : WordTag tag variant) (buf payload : List Byte) :
    decodeOperand tag buf payload = decodeWordOperand variant buf payload := by
  cases h <;> rfl

theorem encodeOperand_eq (h : WordTag tag variant) (w : Word) :
    encodeOperand (variant w) = .ok (tag :: leBytes w) := by
  cases h <;> rfl

end WordTag

theorem decodeOperand_none (buf payload : List Byte) :
    decodeOperand 1#8 buf payload = .ok (.none, 2) := rfl

theorem decodeOperand_str (buf payload : List Byte) :
    decodeOperand 5#8 buf payload = decodeStrOperand buf payload := rfl

theorem decodeOperand_illegal {tag : Byte} (h : 5 < tag.toNat) (buf payload : List Byte) :
    decodeOperand tag buf payload = .error (.invalidEncoding buf) := by
  unfold decodeOperand
  split
  case h_7 => rfl
  all_goals omega

theorem exists_wordTag {tag : Byte} (h : tag ∈ [0#8, 2#8, 3#8, 4#8]) :
    ∃ variant, WordTag tag variant := by
  simp only [List.mem_cons, List.not_mem_nil, or_false] at h
  obtain rfl | rfl | rfl | rfl := h
  · exact ⟨_, .value⟩
  · exact ⟨_, .int64⟩
  · exact ⟨_, .uint64⟩
  · exact ⟨_, .float⟩

/-- A tag is one of format W, the tag of None, the tag of Str, or illegal. -/
theorem tag_cases (tag : Byte) :
    (∃ variant, WordTag tag variant) ∨ tag = 1#8 ∨ tag = 5#8 ∨ 5 < tag.toNat := by
  have h : tag ∈ [0#8, 2#8, 3#8, 4#8] ∨ tag = 1#8 ∨ tag = 5#8 ∨ 5 < tag.toNat := by
    simp only [List.mem_cons, List.not_mem_nil, or_false]
    bv_omega
  exact h.imp_left exists_wordTag

/-! ### The operand's bytes, decoded and encoded -/

theorem decodeWordOperand_short {payload : List Byte} (h : payload.length < 8)
    (variant : Word → Operand) (buf : List Byte) :
    decodeWordOperand variant buf payload = .error (.truncatedRecord buf.length) := by
  unfold decodeWordOperand
  split
  · simp only [List.length_cons] at h
    omega
  · rfl

/-- A format W payload is the eight bytes of a word, and whatever stands after them. -/
theorem decodeWordOperand_eq_ok_iff {variant : Word → Operand} {buf payload : List Byte}
    {o : Operand} {k : Nat} :
    decodeWordOperand variant buf payload = .ok (o, k) ↔
      ∃ w rest, payload = leBytes w ++ rest ∧ o = variant w ∧ k = 10 := by
  constructor
  · intro h
    unfold decodeWordOperand at h
    split at h
    · rename_i b0 b1 b2 b3 b4 b5 b6 b7 rest
      cases h
      exact ⟨leWord b0 b1 b2 b3 b4 b5 b6 b7, rest, by rw [leBytes_leWord]; rfl, rfl, rfl⟩
    · cases h
  · rintro ⟨w, rest, rfl, rfl, rfl⟩
    simp only [leBytes, List.cons_append, decodeWordOperand, leWord_of_leBytes]

theorem decodeStrOperand_long {n : Byte} (hn : Config.strMax < n.toNat) (buf str : List Byte) :
    decodeStrOperand buf (n :: str) = .error (.invalidEncoding buf) := by
  rw [decodeStrOperand, if_pos hn]

theorem decodeStrOperand_short {n : Byte} {str : List Byte} (hn : n.toNat ≤ Config.strMax)
    (h : str.length < n.toNat) (buf : List Byte) :
    decodeStrOperand buf (n :: str) = .error (.truncatedRecord buf.length) := by
  rw [decodeStrOperand, if_neg hn.not_gt, if_pos h]

theorem decodeStrOperand_fits {n : Byte} {str : List Byte} (hn : n.toNat ≤ Config.strMax)
    (h : n.toNat ≤ str.length) (buf : List Byte) :
    decodeStrOperand buf (n :: str) = .ok (.str (str.take n.toNat), 3 + n.toNat) := by
  rw [decodeStrOperand, if_neg hn.not_gt, if_neg h.not_gt]

/-- A format S payload is a length byte, that many bytes, and whatever stands after them. -/
theorem decodeStrOperand_eq_ok_iff {buf payload : List Byte} {o : Operand} {k : Nat} :
    decodeStrOperand buf payload = .ok (o, k) ↔
      ∃ s rest, payload = BitVec.ofNat 8 s.length :: (s ++ rest) ∧ s.length ≤ Config.strMax ∧
        o = .str s ∧ k = 3 + s.length := by
  constructor
  · intro h
    unfold decodeStrOperand at h
    repeat' split at h
    case h_2.isFalse.isFalse n str hmax hlen =>
      cases h
      have hs : (str.take n.toNat).length = n.toNat := by
        rw [List.length_take]
        omega
      refine ⟨str.take n.toNat, str.drop n.toNat, ?_, by omega, rfl, by rw [hs]⟩
      rw [hs, List.take_append_drop, BitVec.ofNat_toNat, BitVec.setWidth_eq]
    all_goals cases h
  · rintro ⟨s, rest, rfl, hmax, rfl, rfl⟩
    have hs : (BitVec.ofNat 8 s.length).toNat = s.length := by
      have : Config.strMax = 11 := rfl
      rw [BitVec.toNat_ofNat]
      omega
    rw [decodeStrOperand_fits (by omega) (by rw [hs, List.length_append]; omega), hs,
      List.take_left]

theorem encodeOperand_str {s : List Byte} (h : s.length ≤ Config.strMax) :
    encodeOperand (.str s) = .ok (5#8 :: BitVec.ofNat 8 s.length :: s) := by
  rw [encodeOperand, if_neg h.not_gt]

theorem encodeOperand_long_str {s : List Byte} (h : Config.strMax < s.length) :
    encodeOperand (.str s) = .error (.encodingTooLarge s.length) := by
  rw [encodeOperand, if_pos h]

/-- An operand is of format W, None, a Str that fits a record, or a Str that does not. -/
theorem operand_cases (o : Operand) :
    (∃ tag variant w, WordTag tag variant ∧ o = variant w) ∨ o = .none ∨
      (∃ s, o = .str s ∧ s.length ≤ Config.strMax) ∨ ∃ s, o = .str s ∧ Config.strMax < s.length := by
  cases o with
  | value w => exact .inl ⟨_, _, w, .value, rfl⟩
  | int64 w => exact .inl ⟨_, _, w, .int64, rfl⟩
  | uint64 w => exact .inl ⟨_, _, w, .uint64, rfl⟩
  | float w => exact .inl ⟨_, _, w, .float, rfl⟩
  | none => exact .inr (.inl rfl)
  | str s =>
    obtain h | h := le_or_gt s.length Config.strMax
    · exact .inr (.inr (.inl ⟨s, rfl, h⟩))
    · exact .inr (.inr (.inr ⟨s, rfl, h⟩))

/-- What a tag and a payload decode to is the operand whose encoding they start with
(30_encoding.md R73). -/
theorem decodeOperand_eq_ok_iff {tag : Byte} {buf payload : List Byte} {o : Operand} {k : Nat} :
    decodeOperand tag buf payload = .ok (o, k) ↔
      ∃ bytes rest, encodeOperand o = .ok (tag :: bytes) ∧ payload = bytes ++ rest ∧
        k = bytes.length + 2 := by
  constructor
  · intro h
    obtain ⟨variant, hw⟩ | rfl | rfl | hill := tag_cases tag
    · rw [hw.decodeOperand_eq, decodeWordOperand_eq_ok_iff] at h
      obtain ⟨w, rest, rfl, rfl, rfl⟩ := h
      exact ⟨leBytes w, rest, hw.encodeOperand_eq w, rfl, rfl⟩
    · cases h
      exact ⟨[], payload, rfl, rfl, rfl⟩
    · rw [decodeOperand_str, decodeStrOperand_eq_ok_iff] at h
      obtain ⟨s, rest, rfl, hmax, rfl, rfl⟩ := h
      exact ⟨_ :: s, rest, encodeOperand_str hmax, rfl, by rw [List.length_cons]; omega⟩
    · rw [decodeOperand_illegal hill] at h
      cases h
  · rintro ⟨bytes, rest, henc, rfl, rfl⟩
    obtain ⟨tag', variant, w, hw, rfl⟩ | rfl | ⟨s, rfl, hs⟩ | ⟨s, rfl, hs⟩ := operand_cases o
    · rw [hw.encodeOperand_eq] at henc
      cases henc
      exact (hw.decodeOperand_eq _ _).trans
        (decodeWordOperand_eq_ok_iff.mpr ⟨w, rest, rfl, rfl, rfl⟩)
    · cases henc
      rfl
    · rw [encodeOperand_str hs] at henc
      cases henc
      exact decodeStrOperand_eq_ok_iff.mpr
        ⟨s, rest, rfl, hs, rfl, by rw [List.length_cons]; omega⟩
    · rw [encodeOperand_long_str hs] at henc
      cases henc

/-! ### The record -/

theorem decode_short {buf : List Byte} (h : buf.length < 2) :
    decode buf = .error (.truncatedRecord buf.length) := by
  match buf with
  | [] | [_] => rfl
  | _ :: _ :: _ => simp only [List.length_cons] at h; omega

section decode

variable {op tag : Byte} {payload : List Byte}

theorem decode_illegal_opcode (h : 0x1A < op.toNat) :
    decode (op :: tag :: payload) = .error (.invalidEncoding (op :: tag :: payload)) := by
  simp only [decode, (instrOfOpcode_eq_none_iff op).mpr h]

theorem decode_error_of_decodeOperand {e : CodecError} (hop : op.toNat ≤ 0x1A)
    (h : decodeOperand tag (op :: tag :: payload) payload = .error e) :
    decode (op :: tag :: payload) = .error e := by
  obtain ⟨mk, hmk⟩ := exists_instrOfOpcode hop
  simp only [decode, hmk, h]

theorem decodesTo_of_decodeOperand {o : Operand} {k : Nat} (hop : op.toNat ≤ 0x1A)
    (h : decodeOperand tag (op :: tag :: payload) payload = .ok (o, k)) :
    DecodesTo (op :: tag :: payload) op o k := by
  obtain ⟨mk, hmk⟩ := exists_instrOfOpcode hop
  exact ⟨mk o, by simp only [decode, hmk, h], opcodeByte_of_instrOfOpcode hmk o,
    instrOfOpcode_operand hmk o⟩

theorem decodesTo_word {variant : Word → Operand} (hop : op.toNat ≤ 0x1A)
    (htag : WordTag tag variant) (b0 b1 b2 b3 b4 b5 b6 b7 : Byte) (more : List Byte) :
    DecodesTo (op :: tag :: b0 :: b1 :: b2 :: b3 :: b4 :: b5 :: b6 :: b7 :: more) op
      (variant (leWord b0 b1 b2 b3 b4 b5 b6 b7)) 10 :=
  decodesTo_of_decodeOperand hop (htag.decodeOperand_eq _ _)

end decode

/-- A decoded buffer starts with a legal opcode byte and an operand tag, and the payload after them
decodes to the operand (30_encoding.md R70). -/
theorem decode_ok_cases {buf : List Byte} {i : Instr} {k : Nat} (h : decode buf = .ok (i, k)) :
    ∃ tag payload, buf = opcodeByte i :: tag :: payload ∧
      decodeOperand tag buf payload = .ok (i.operand, k) := by
  match buf with
  | [] | [_] => cases h
  | op :: tag :: payload =>
    simp only [decode] at h
    split at h
    · cases h
    · rename_i mk hmk
      split at h
      · cases h
      · rename_i o k' ho
        cases h
        rw [opcodeByte_of_instrOfOpcode hmk, instrOfOpcode_operand hmk]
        exact ⟨tag, payload, rfl, ho⟩

theorem encode_of_encodeOperand {i : Instr} {o : Operand} {bytes : List Byte} (hi : i.operand = o)
    (h : encodeOperand o = .ok bytes) : encode i = .ok (opcodeByte i :: bytes) := by
  rw [encode, hi, h]

theorem encode_long_str {i : Instr} {s : List Byte} (hi : i.operand = .str s)
    (h : Config.strMax < s.length) : encode i = .error (.encodingTooLarge s.length) := by
  rw [encode, hi, encodeOperand_long_str h]

theorem encode_word {tag : Byte} {variant : Word → Operand} (htag : WordTag tag variant) {i : Instr}
    {w : Word} (hi : i.operand = variant w) :
    encode i = .ok ([opcodeByte i, tag] ++ le64 w) := by
  rw [encode_of_encodeOperand hi (htag.encodeOperand_eq w), leBytes_eq_le64]
  rfl

/-- encode answers an opcode byte, an operand tag and a payload, or its operand is a Str that does
not fit a record (30_encoding.md R69). -/
theorem encode_cases (i : Instr) :
    (∃ tag payload, encodeOperand i.operand = .ok (tag :: payload) ∧
      encode i = .ok (opcodeByte i :: tag :: payload)) ∨
    ∃ s, i.operand = .str s ∧ Config.strMax < s.length := by
  obtain ⟨tag, variant, w, htag, ho⟩ | ho | ⟨s, ho, hs⟩ | h := operand_cases i.operand
  · have henc := htag.encodeOperand_eq w
    exact .inl ⟨_, _, ho ▸ henc, encode_of_encodeOperand ho henc⟩
  · exact .inl ⟨_, _, ho ▸ rfl, encode_of_encodeOperand ho rfl⟩
  · have henc := encodeOperand_str hs
    exact .inl ⟨_, _, ho ▸ henc, encode_of_encodeOperand ho henc⟩
  · exact .inr h

/-- A buffer decodes to the instruction whose record it starts with (30_encoding.md R73). -/
theorem decode_eq_ok_iff {buf : List Byte} {i : Instr} {k : Nat} :
    decode buf = .ok (i, k) ↔
      ∃ bytes rest, encode i = .ok bytes ∧ buf = bytes ++ rest ∧ k = bytes.length := by
  constructor
  · intro h
    obtain ⟨tag, payload, rfl, ho⟩ := decode_ok_cases h
    obtain ⟨bytes, rest, henc, rfl, rfl⟩ := decodeOperand_eq_ok_iff.mp ho
    exact ⟨_, rest, encode_of_encodeOperand rfl henc, rfl, rfl⟩
  · rintro ⟨bytes, rest, henc, rfl, rfl⟩
    obtain ⟨tag, payload, ho, hi⟩ | ⟨s, hi, hs⟩ := encode_cases i
    · cases hi.symm.trans henc
      obtain ⟨mk, hmk, hmki⟩ := instrOfOpcode_opcodeByte i
      have hdec : decodeOperand tag (opcodeByte i :: tag :: (payload ++ rest)) (payload ++ rest) =
          .ok (i.operand, payload.length + 2) :=
        decodeOperand_eq_ok_iff.mpr ⟨payload, rest, ho, rfl, rfl⟩
      simp only [List.cons_append, decode, hmk, hdec, hmki, List.length_cons]
    · cases (encode_long_str hi hs).symm.trans henc

theorem decode_of_encode {i : Instr} {bytes : List Byte} (h : encode i = .ok bytes) :
    decode bytes = .ok (i, bytes.length) :=
  decode_eq_ok_iff.mpr ⟨bytes, [], h, (List.append_nil bytes).symm, rfl⟩

end Sys2Proof

section

open Sys2Proof Sys2Proof.Machine Sys2Proof.Claims

/-- Settles O8: a buffer decodes to the instruction whose record it starts with, and only a Str
longer than a record holds has no record. -/
theorem codecRoundTrip : Obligations.CodecRoundTrip := by
  refine ⟨fun i hwf => ?_, fun buf i k h => ?_, fun i => ⟨?_, ?_⟩⟩
  · obtain ⟨tag, payload, -, henc⟩ | ⟨s, hi, hs⟩ := encode_cases i
    · exact ⟨_, henc, decode_of_encode henc⟩
    · rw [Instr.wf, hi, Operand.wf, decide_eq_true_eq] at hwf
      omega
  · obtain ⟨bytes, rest, henc, rfl, rfl⟩ := decode_eq_ok_iff.mp h
    rw [henc, List.take_left]
  · rintro ⟨e, he⟩
    obtain ⟨tag, payload, -, henc⟩ | h := encode_cases i
    · cases henc.symm.trans he
    · exact h
  · rintro ⟨s, hi, hs⟩
    exact ⟨_, encode_long_str hi hs⟩

/-- Settles O9: the checks of the opcode and of the tag, then those of the payload by its format. -/
theorem decodeFollowsCheckOrder : Obligations.DecodeFollowsCheckOrder := by
  refine ⟨fun buf => decode_short, fun op tag rest => ⟨decode_illegal_opcode, fun hop htag => ?_,
    fun hop htag => ?_, fun hop htag hlen => ?_, fun b0 b1 b2 b3 b4 b5 b6 b7 more hop hrest => ?_,
    fun hop htag hrest => ?_, fun n str hop htag hrest => ⟨fun hn => ?_, fun hn hlen => ?_,
    fun hn hlen => ?_⟩⟩⟩
  · exact decode_error_of_decodeOperand hop (decodeOperand_illegal htag _ _)
  · subst htag
    exact decodesTo_of_decodeOperand hop (decodeOperand_none _ _)
  · obtain ⟨variant, hw⟩ := exists_wordTag htag
    refine decode_error_of_decodeOperand hop ?_
    rw [hw.decodeOperand_eq, decodeWordOperand_short hlen]
    rfl
  · subst hrest
    refine ⟨leWord b0 b1 b2 b3 b4 b5 b6 b7, toNat_leWord .., ?_, ?_, ?_, ?_⟩ <;> rintro rfl
    · exact decodesTo_word hop .value ..
    · exact decodesTo_word hop .int64 ..
    · exact decodesTo_word hop .uint64 ..
    · exact decodesTo_word hop .float ..
  · subst htag hrest
    exact decode_error_of_decodeOperand hop rfl
  · subst htag hrest
    exact decode_error_of_decodeOperand hop (decodeStrOperand_long hn _ _)
  · subst htag hrest
    exact decode_error_of_decodeOperand hop (decodeStrOperand_short hn hlen _)
  · subst htag hrest
    exact decodesTo_of_decodeOperand hop (decodeStrOperand_fits hn hlen _)

/-- Settles O10: each listed record is its instruction's, and an illegal opcode byte decodes to
nothing. -/
theorem opcodeTableDecodes : Obligations.OpcodeTableDecodes := by
  refine ⟨fun p hp => ?_, fun op rest i k hop h => ?_⟩
  · have hrecord : p.1 = opcodeByte p.2 ∧ p.2.operand = .none := by
      revert p
      decide
    obtain ⟨hop, hnone⟩ := hrecord
    rw [hop]
    exact decode_of_encode (encode_of_encodeOperand hnone rfl)
  · match rest with
    | [] => cases h
    | tag :: payload => cases (decode_illegal_opcode hop).symm.trans h

/-- Settles O11: the opcode byte, then the operand's own bytes. -/
theorem encodeWritesTheRecord : Obligations.EncodeWritesTheRecord := fun _ =>
  ⟨fun hi => encode_of_encodeOperand hi rfl,
    fun _ => encode_word .value, fun _ => encode_word .int64,
    fun _ => encode_word .uint64, fun _ => encode_word .float,
    fun _ hi hs => encode_of_encodeOperand hi (encodeOperand_str hs),
    fun _ => encode_long_str⟩

/-- Settles O12: the decoder evaluated on each record. -/
theorem writtenOutRecordsDecode : Obligations.WrittenOutRecordsDecode :=
  ⟨rfl, rfl, rfl, rfl, rfl, rfl, rfl⟩

end

/-! ## The engine's step: a slot's record is whole, and what each fetch makes the step do -/

namespace Sys2Proof.Machine

/-- Eight bytes are a whole format W payload (30_encoding.md R63). -/
theorem decodeWordOperand_of_length_ge {payload : List Byte} (h : 8 ≤ payload.length)
    (variant : Word → Operand) (buf : List Byte) :
    ∃ w, decodeWordOperand variant buf payload = .ok (variant w, 10) := by
  match payload with
  | b0 :: b1 :: b2 :: b3 :: b4 :: b5 :: b6 :: b7 :: _ => exact ⟨_, rfl⟩
  | [] | [_] | [_, _] | [_, _, _] | [_, _, _, _] | [_, _, _, _, _] | [_, _, _, _, _, _]
  | [_, _, _, _, _, _, _] => simp at h

/-- A length byte and STR_MAX bytes hold every format S payload whose length is legal. -/
theorem decodeStrOperand_ne_truncatedRecord {payload : List Byte}
    (h : Config.strMax < payload.length) (buf : List Byte) (m : Nat) :
    decodeStrOperand buf payload ≠ .error (.truncatedRecord m) := by
  match payload with
  | n :: str =>
    rw [List.length_cons] at h
    obtain hn | hn := le_or_gt n.toNat Config.strMax
    · rw [decodeStrOperand_fits hn (by omega)]
      exact nofun
    · rw [decodeStrOperand_long hn]
      exact nofun

/-- The payload of a whole slot holds every operand's bytes. -/
theorem decodeOperand_ne_truncatedRecord {payload : List Byte}
    (h : Config.recordCapacity ≤ payload.length + 2) (tag : Byte) (buf : List Byte) (m : Nat) :
    decodeOperand tag buf payload ≠ .error (.truncatedRecord m) := by
  have hword : 8 ≤ payload.length := by
    have : Config.recordCapacity = 14 := rfl
    omega
  have hstr : Config.strMax < payload.length := by
    have : Config.strMax = Config.recordCapacity - 3 := rfl
    omega
  obtain ⟨variant, hw⟩ | rfl | rfl | hill := tag_cases tag
  · obtain ⟨w, hok⟩ := decodeWordOperand_of_length_ge hword variant buf
    rw [hw.decodeOperand_eq, hok]
    exact nofun
  · rw [decodeOperand_none]
    exact nofun
  · rw [decodeOperand_str]
    exact decodeStrOperand_ne_truncatedRecord hstr buf m
  · rw [decodeOperand_illegal hill]
    exact nofun

/-- A buffer of a slot's length is never shorter than the record it starts (40_engine_step.md
R85). -/
theorem decode_ne_truncatedRecord {buf : List Byte} (h : Config.recordCapacity ≤ buf.length)
    (m : Nat) : decode buf ≠ .error (.truncatedRecord m) := by
  match buf with
  | [] | [_] => simp [Config.recordCapacity] at h
  | op :: tag :: payload =>
    obtain hop | hop := le_or_gt op.toNat 0x1A
    · rcases ho : decodeOperand tag (op :: tag :: payload) payload with e | ⟨o, k⟩
      · rw [decode_error_of_decodeOperand hop ho]
        rintro ⟨⟩
        exact decodeOperand_ne_truncatedRecord h tag _ m ho
      · obtain ⟨i, hok, -⟩ := decodesTo_of_decodeOperand hop ho
        rw [hok]
        exact nofun
    · rw [decode_illegal_opcode hop]
      exact nofun

section step

variable {s : State}

theorem fetch_eq_pastEnd (hip : s.programLength ≤ s.ip) : fetch s = .pastEnd := by
  rw [fetch, if_neg (BitVec.not_lt.mpr hip)]

theorem fetch_eq_illegal {e : CodecError} (hip : s.ip < s.programLength)
    (hdec : decode (slotRead s s.ip) = .error e) : fetch s = .illegal (slotRead s s.ip) := by
  rw [fetch, if_pos hip, hdec]

/-- Only a slot of the program is fetched (40_engine_step.md R84). -/
theorem ip_lt_of_fetch_eq_instr {i : Instr} (hfetch : fetch s = .instr i) :
    s.ip < s.programLength := by
  by_contra hip
  rw [fetch, if_neg hip] at hfetch
  cases hfetch

theorem step_eq_halted (hrun : s.runState = .running) (hip : s.programLength ≤ s.ip) :
    step s = .next { s with runState := .halted } := by
  rw [step, hrun, fetch_eq_pastEnd hip]
  rfl

theorem step_eq_faultedBy {e : CodecError} (hrun : s.runState = .running)
    (hip : s.ip < s.programLength) (hdec : decode (slotRead s s.ip) = .error e) :
    step s = .next (s.faultedBy .invalidEncoding 3 (.slotBytes (slotRead s s.ip))) := by
  rw [step, hrun, fetch_eq_illegal hip hdec]
  rfl

/-- The next index of a fetched slot does not wrap, since it is at most N (40_engine_step.md
R87). -/
theorem toNat_ip_add_one {i : Instr} (hfetch : fetch s = .instr i) :
    (s.ip + 1#64).toNat = s.ip.toNat + 1 := by
  have hip := ip_lt_of_fetch_eq_instr hfetch
  bv_omega

/-- An instruction that takes no fault advances `ip`, jumps to its target, or waits for the host
(40_engine_step.md R87, log entry 7). -/
theorem Effect.ip_cases {t : State} {i : Instr} (e : Effect s i t) (hok : t.runState ≠ .faulted) :
    t.ip = s.ip + 1#64 ∨
      (((∃ o, i = .jmp o) ∨ isCondJump i = true) ∧ targetOf i.operand = some t.ip) ∨
      ((∃ o, i = .native o) ∧ t = s) := by
  cases e with
  | faulted i k info => exact absurd rfl hok
  | jumped i target jump has => exact .inr (.inl ⟨jump, has⟩)
  | waiting o => exact .inr (.inr ⟨⟨o, rfl⟩, rfl⟩)
  | _ => exact .inl rfl

end step

end Sys2Proof.Machine

section

open Sys2Proof Sys2Proof.Machine

/-- Settles O4: a step is taken only from a Running state, and none of its three ways is stuck. -/
theorem exactlyRunningStatesStep : Obligations.ExactlyRunningStatesStep := fun s =>
  ⟨fun ⟨_, hstep⟩ => (step_next_cases hstep).1, step_of_running s⟩

/-- Settles O7: a slot read has the length of the longest record, and an undecodable slot is an
illegal fetch. -/
theorem fetchFaultsOnlyByInvalidEncoding : Obligations.FetchFaultsOnlyByInvalidEncoding :=
  ⟨fun s i n => ⟨slotRead_length s i, decode_ne_truncatedRecord (slotRead_length s i).ge n⟩,
    fun _ _ => step_eq_faultedBy⟩

/-- Settles O50: the cases of the instruction's `Effect`; a fetched slot's index is below N, so its
successor does not wrap. -/
theorem ipAdvancesByOneUnlessJumping : Obligations.IpAdvancesByOneUnlessJumping := by
  intro s t i _ hfetch hexec hok
  obtain hip | hjump_or_wait := (effect_of_exec hexec).ip_cases hok
  · exact .inl (by rw [hip, toNat_ip_add_one hfetch])
  · exact .inr hjump_or_wait

/-- Settles O5: one fetch, one way of the step. -/
theorem stepRunsTheDecodedInstruction : Obligations.StepRunsTheDecodedInstruction :=
  fun _ hrun => ⟨step_eq_halted hrun,
    fun _ _ hip hdec => step_eq_exec hrun (fetch_eq_instr hip hdec),
    fun _ => step_eq_faultedBy hrun⟩

/-- Settles O6: the empty program ends at the index 0 where its run starts. -/
theorem implicitHaltPastTheEnd : Obligations.ImplicitHaltPastTheEnd :=
  ⟨fun _ => step_eq_halted, fun _ _ _ _ => step_eq_halted rfl (BitVec.le_refl 0#64)⟩

end

/-! ## The stack instructions: what the shared operations do on a stack that is deep enough, too
shallow, or full -/

namespace Sys2Proof.Machine

section

variable {s : State}

theorem withTop_underflow (h : s.stack.length < 1) (body : Word → List Word → Result) :
    withTop s body = .next (s.faultedBy .stackUnderflow 4 (.words 1 s.stack.length)) := by
  rw [withTop, List.length_eq_zero_iff.mp (Nat.lt_one_iff.mp h)]
  rfl

theorem withTop_of_stack {w : Word} {rest : List Word} (h : s.stack = w :: rest)
    (body : Word → List Word → Result) : withTop s body = body w rest := by
  rw [withTop, h]

theorem withTwo_underflow (h : s.stack.length < 2) (body : Word → Word → List Word → Result) :
    withTwo s body = .next (s.faultedBy .stackUnderflow 4 (.words 2 s.stack.length)) := by
  obtain ⟨-, hfault⟩ | ⟨b, a, rest, hs, -⟩ := withTwo_cases s body
  · exact hfault
  · simp [hs] at h

theorem withTwo_of_stack {a b : Word} {rest : List Word} (h : s.stack = b :: a :: rest)
    (body : Word → Word → List Word → Result) : withTwo s body = body a b rest := by
  rw [withTwo, h]

theorem pushWord_of_full (h : s.stackDepth = some s.stack.length) (w : Word) :
    pushWord w s = .next (s.faultedBy .stackOverflow 9 (.depth s.stack.length)) := by
  rw [pushWord, if_pos ((stackFull_iff s).mpr h)]
  rfl

theorem pushWord_of_not_full (h : s.stackDepth ≠ some s.stack.length) (w : Word) :
    pushWord w s = .next { s with stack := w :: s.stack, ip := s.ip + 1#64 } := by
  rw [pushWord, if_neg (mt (stackFull_iff s).mp h)]
  rfl

theorem execPush_of_no_value {o : Operand} (h : valueOf o = none) :
    execPush o s = .next (s.faultedBy .invalidOperand 8 (.operand o)) := by
  rw [execPush, h]
  rfl

theorem execPush_of_value {o : Operand} {v : Word} (h : valueOf o = some v) :
    execPush o s = pushWord v s := by
  rw [execPush, h]

end

end Sys2Proof.Machine

section

open Sys2Proof Sys2Proof.Machine

/-- Settles O20: the operand is checked before the capacity. -/
theorem pushRule : Obligations.PushRule := fun _ _ =>
  ⟨execPush_of_no_value,
    fun v hv hfull => (execPush_of_value hv).trans (pushWord_of_full hfull v),
    fun v hv hfits => (execPush_of_value hv).trans (pushWord_of_not_full hfits v)⟩

/-- Settles O21: the two branches of `withTop`; the body completes with the words below. -/
theorem popRule : Obligations.PopRule := fun _ =>
  ⟨fun _ hshort => withTop_underflow hshort _, fun _ _ _ hs => withTop_of_stack hs _⟩

/-- Settles O22: the two branches of `withTwo`; the body completes with the operands exchanged. -/
theorem swapRule : Obligations.SwapRule := fun _ =>
  ⟨fun _ hshort => withTwo_underflow hshort _, fun _ _ _ _ hs => withTwo_of_stack hs _⟩

/-- Settles O23: the underflow of `withTop`, then the capacity check of the push of the top word. -/
theorem dupRule : Obligations.DupRule := by
  refine fun o => ⟨fun s hshort => withTop_underflow hshort _, fun s w rest hs => ?_⟩
  have hexec : exec (.dup o) s = pushWord w s := withTop_of_stack hs _
  refine ⟨fun hfull => hexec.trans (pushWord_of_full hfull w), fun hfits => ?_⟩
  rw [hexec, pushWord_of_not_full hfits, hs]

end

/-! ## Rounding to the nearest double, ties to even (42_arithmetic.md R96) -/

namespace Sys2Proof.Machine

open Sys2Proof.Claims

/-- The rounded quotient misses the exact one by at most a half, and by a half only when it is
even. -/
theorem roundToEven_spec (num : Nat) {den : Nat} (hden : 0 < den) :
    2 * (roundToEven num den * den) ≤ 2 * num + den ∧
      2 * num ≤ 2 * (roundToEven num den * den) + den ∧
      (2 * (roundToEven num den * den) = 2 * num + den ∨
        2 * num = 2 * (roundToEven num den * den) + den → roundToEven num den % 2 = 0) := by
  have hdiv : num / den * den + num % den = num := by rw [mul_comm]; exact Nat.div_add_mod num den
  have hlt : num % den < den := Nat.mod_lt _ hden
  unfold roundToEven
  dsimp only
  split_ifs with hup htie
  · rw [add_mul]
    omega
  · obtain heven | hodd := Nat.mod_two_eq_zero_or_one (num / den)
    · rw [heven, Nat.add_zero]
      omega
    · rw [hodd, add_mul]
      omega
  · omega

theorem roundToEven_le {num den c : Nat} (hden : 0 < den) (h : num ≤ c * den) :
    roundToEven num den ≤ c := by
  obtain ⟨hle, -, -⟩ := roundToEven_spec num hden
  by_contra! hlt
  nlinarith

/-- The rounded quotient reaches an even number from half below it on. -/
theorem even_le_roundToEven_iff {num den c : Nat} (hden : 0 < den) (hc : c % 2 = 0) :
    c ≤ roundToEven num den ↔ 2 * (c * den) ≤ 2 * num + den := by
  obtain ⟨hle, hge, htie⟩ := roundToEven_spec num hden
  constructor
  · intro h
    have := Nat.mul_le_mul_right den h
    omega
  · intro h
    by_contra! hlt
    have hmul : (roundToEven num den + 1) * den ≤ c * den := Nat.mul_le_mul_right den hlt
    rw [add_mul] at hmul
    have hone : c = roundToEven num den + 1 := by
      by_contra hne
      have : (roundToEven num den + 2) * den ≤ c * den := Nat.mul_le_mul_right den (by omega)
      rw [add_mul] at this
      omega
    have := htie (.inr (by omega))
    omega

/-- Every whole number is at least as far from the exact quotient as the rounded one, and as near
only when it is the rounded one or the rounded one is even. -/
theorem roundToEven_nearest (num : Nat) {den : Nat} (hden : 0 < den) (j : Int) :
    |(roundToEven num den : Int) * den - num| ≤ |j * den - num| ∧
      (|(roundToEven num den : Int) * den - num| = |j * den - num| →
        j = roundToEven num den ∨ roundToEven num den % 2 = 0) := by
  obtain ⟨hle, hge, htie⟩ := roundToEven_spec num hden
  generalize roundToEven num den = m at *
  have hprod : ((m * den : Nat) : Int) = (m : Int) * den := Nat.cast_mul m den
  obtain hlt | rfl | hgt := lt_trichotomy j m
  · have hstep : j * den + den ≤ m * den := by nlinarith
    rw [Int.abs_eq_natAbs, Int.abs_eq_natAbs]
    omega
  · simp
  · have hstep : (m : Int) * den + den ≤ j * den := by nlinarith
    rw [Int.abs_eq_natAbs, Int.abs_eq_natAbs]
    omega

/-! ### The binade and the significand that `roundBits` packs -/

/-- The binades of the quotient above the subnormal spacing. -/
def binade (num den : Nat) : Nat := Nat.log2 (num / den) - 52

/-- The quotient rounded at the spacing of its binade. -/
def significand (num den : Nat) : Nat := roundToEven num (den * 2 ^ binade num den)

theorem roundBits_eq (num den : Nat) :
    roundBits num den = min infBits (binade num den * 2 ^ 52 + significand num den) := rfl

section

variable {num den : Nat}

theorem lt_of_binade (hden : 0 < den) : num < 2 ^ 53 * (den * 2 ^ binade num den) := by
  have hlog : num / den < 2 ^ (53 + binade num den) :=
    Nat.lt_log2_self.trans_le (Nat.pow_le_pow_right two_pos (by unfold binade; omega))
  calc num < 2 ^ (53 + binade num den) * den := (Nat.div_lt_iff_lt_mul hden).mp hlog
    _ = 2 ^ 53 * (den * 2 ^ binade num den) := by ring

theorem le_of_binade_ne_zero (h : binade num den ≠ 0) :
    2 ^ 52 * (den * 2 ^ binade num den) ≤ num := by
  have hexp : 52 + binade num den = Nat.log2 (num / den) := by unfold binade at *; omega
  have hquot : num / den ≠ 0 := by
    intro h0
    simp [binade, h0] at h
  calc 2 ^ 52 * (den * 2 ^ binade num den) = 2 ^ (52 + binade num den) * den := by ring
    _ ≤ num / den * den := by rw [hexp]; exact Nat.mul_le_mul_right _ (Nat.log2_self_le hquot)
    _ ≤ num := Nat.div_mul_le_self num den

theorem significand_le (hden : 0 < den) : significand num den ≤ 2 ^ 53 :=
  roundToEven_le (Nat.mul_pos hden (Nat.two_pow_pos _)) (lt_of_binade hden).le

theorem le_significand (hden : 0 < den) (h : binade num den ≠ 0) :
    2 ^ 52 ≤ significand num den := by
  refine (even_le_roundToEven_iff (Nat.mul_pos hden (Nat.two_pow_pos _)) (by decide)).mpr ?_
  have := le_of_binade_ne_zero h
  omega

/-- The packed bits reach an infinity's exactly from the overflow threshold on, half a spacing above
the largest double. -/
theorem infBits_le_iff (hden : 0 < den) :
    infBits ≤ binade num den * 2 ^ 52 + significand num den ↔
      (2 ^ 54 - 1) * (den * 2 ^ 2044) ≤ num := by
  have hupper := lt_of_binade (num := num) hden
  have hlower := le_of_binade_ne_zero (num := num) (den := den)
  have hsig := significand_le (num := num) hden
  have hinf : infBits = 2047 * 2 ^ 52 := rfl
  rw [hinf]
  obtain hlow | hlast | hhigh : binade num den ≤ 2044 ∨ binade num den = 2045 ∨
      2046 ≤ binade num den := by omega
  · have hpow : den * 2 ^ binade num den ≤ den * 2 ^ 2044 :=
      Nat.mul_le_mul_left den (pow_le_pow_right₀ one_le_two hlow)
    generalize den * 2 ^ 2044 = spacing at *
    omega
  · have heven : 2 ^ 53 ≤ significand num den ↔ _ :=
      even_le_roundToEven_iff (Nat.mul_pos hden (Nat.two_pow_pos _)) (by decide)
    have hpow : den * 2 ^ binade num den = 2 * (den * 2 ^ 2044) := by
      rw [hlast, pow_succ 2 2044, ← mul_assoc, mul_comm]
    rw [hpow] at heven
    rw [hlast]
    generalize den * 2 ^ 2044 = spacing at *
    omega
  · have hpow : 2 ^ 2 * (den * 2 ^ 2044) ≤ den * 2 ^ binade num den := by
      calc 2 ^ 2 * (den * 2 ^ 2044) = den * 2 ^ (2044 + 2) := by
            rw [pow_add, mul_left_comm, mul_comm (2 ^ 2)]
        _ ≤ _ := Nat.mul_le_mul_left den (pow_le_pow_right₀ one_le_two hhigh)
    have hbig := hlower (by omega)
    have hnormal := le_significand (num := num) hden (by omega)
    generalize den * 2 ^ 2044 = spacing at *
    omega

/-- The doubles are whole multiples of the spacing from the first one of its binade on, so none is
nearer to the exact quotient than the rounded significand. -/
theorem significand_nearest (hden : 0 < den) {j : Int}
    (hj : ∀ k, 2 ^ (52 + k) ≤ j.natAbs → 2 ^ k ∣ j.natAbs) :
    |((significand num den * 2 ^ binade num den : Nat) : Int) * den - num| ≤ |j * den - num| ∧
      (|((significand num den * 2 ^ binade num den : Nat) : Int) * den - num| = |j * den - num| →
        j = (significand num den * 2 ^ binade num den : Nat) ∨ significand num den % 2 = 0) := by
  have hpos : 0 < den * 2 ^ binade num den := Nat.mul_pos hden (Nat.two_pow_pos _)
  have hspace (i : Int) :
      i * (2 ^ binade num den : Nat) * den = i * (den * 2 ^ binade num den : Nat) := by
    push_cast
    ring
  have hnear := roundToEven_nearest num hpos
  rw [Nat.cast_mul, hspace]
  by_cases hdvd : 2 ^ binade num den ∣ j.natAbs
  · obtain ⟨i, rfl⟩ := Int.natCast_dvd.mpr hdvd
    obtain ⟨hle, htie⟩ := hnear i
    rw [mul_comm _ i, hspace]
    exact ⟨hle, fun heq => (htie heq).imp_left fun hi => by rw [hi]; rfl⟩
  · have hsmall : j.natAbs < 2 ^ (52 + binade num den) := lt_of_not_ge (mt (hj _) hdvd)
    have hbinade : binade num den ≠ 0 := by
      intro h0
      simp [h0] at hdvd
    have hlower := le_of_binade_ne_zero hbinade
    obtain ⟨hfirst, -⟩ := hnear (2 ^ 52)
    have hbelow : j * den < 2 ^ 52 * (den * 2 ^ binade num den : Nat) := by
      calc j * den < (2 ^ (52 + binade num den) : Nat) * den :=
            mul_lt_mul_of_pos_right (by omega) (by exact_mod_cast hden)
        _ = 2 ^ 52 * (den * 2 ^ binade num den : Nat) := by push_cast; ring
    have hlt : |2 ^ 52 * (den * 2 ^ binade num den : Nat) - (num : Int)| < |j * den - num| := by
      rw [Int.abs_eq_natAbs, Int.abs_eq_natAbs]
      omega
    have hfar := hfirst.trans_lt hlt
    exact ⟨hfar.le, fun heq => absurd heq hfar.ne⟩

end

/-! ### The value of a word, in units of 2^-1074 -/

/-- The units of the double whose bits 62:0 are `bits`. -/
def bitsUnits (bits : Nat) : Nat :=
  if bits / 2 ^ 52 = 0 then bits else (2 ^ 52 + bits % 2 ^ 52) * 2 ^ (bits / 2 ^ 52 - 1)

/-- A significand packed with its binade has the significand's value at the binade's spacing; a
carry to 2^53 is the first double of the next binade. -/
theorem bitsUnits_pack {k m : Nat} (hle : m ≤ 2 ^ 53) (hnormal : k ≠ 0 → 2 ^ 52 ≤ m) :
    bitsUnits (k * 2 ^ 52 + m) = m * 2 ^ k := by
  unfold bitsUnits
  obtain hsub | hnorm | hcarry : m < 2 ^ 52 ∨ (2 ^ 52 ≤ m ∧ m < 2 ^ 53) ∨ m = 2 ^ 53 := by omega
  · have hk : k = 0 := by omega
    subst hk
    rw [if_pos (by omega)]
    omega
  · have hexp : (k * 2 ^ 52 + m) / 2 ^ 52 = k + 1 := by omega
    have hfrac : 2 ^ 52 + (k * 2 ^ 52 + m) % 2 ^ 52 = m := by omega
    rw [hexp, hfrac, if_neg (by omega), Nat.add_sub_cancel]
  · have hexp : (k * 2 ^ 52 + m) / 2 ^ 52 = k + 2 := by omega
    have hfrac : (k * 2 ^ 52 + m) % 2 ^ 52 = 0 := by omega
    rw [hexp, hfrac, if_neg (by omega), hcarry, Nat.add_sub_cancel_right (m := 1) (n := k + 1)]
    ring

@[simp] theorem signField_signed63 (neg : Bool) (bits : Nat) :
    signField (signed63 neg bits) = neg := by
  have e : signField (signed63 neg bits) =
    (BitVec.ofBool neg ++ BitVec.ofNat 63 bits : BitVec (1 + 63)).getLsbD 63 := rfl
  rw [e, BitVec.getLsbD_append, if_neg (by decide)]
  cases neg <;> rfl

theorem floatValue_signed63 (neg : Bool) {bits : Nat} (h : bits < infBits) :
    floatValue (signed63 neg bits) = .finite neg (bitsUnits bits) := by
  have hbits : bits < 0x7FF * 2 ^ 52 := h
  have hword := toNat_signed63 neg (bits := bits) (by omega)
  have hsign := Bool.toNat_le neg
  have hexp : (expField (signed63 neg bits)).toNat = bits / 2 ^ 52 := by
    rw [toNat_expField, hword]
    omega
  have hfrac : (mantField (signed63 neg bits)).toNat = bits % 2 ^ 52 := by
    rw [toNat_mantField, hword]
    omega
  simp only [floatValue, hexp, hfrac, signField_signed63, bitsUnits]
  rw [if_neg (by omega)]
  split_ifs with hzero
  · rw [Nat.mod_eq_of_lt (by omega)]
  · rfl

/-- A finite double from the first one of a binade on is a whole multiple of the binade's
spacing. -/
theorem pow_dvd_of_floatValue {w : Word} {neg : Bool} {mag k : Nat}
    (h : floatValue w = .finite neg mag) (hmag : 2 ^ (52 + k) ≤ mag) : 2 ^ k ∣ mag := by
  have hfrac : (mantField w).toNat < 2 ^ 52 := (mantField w).isLt
  unfold floatValue at h
  dsimp only at h
  split_ifs at h with hinf hsub
  · cases h
    have : 2 ^ 52 ≤ 2 ^ (52 + k) := Nat.pow_le_pow_right two_pos (by omega)
    omega
  · cases h
    refine Dvd.dvd.mul_left (pow_dvd_pow 2 ?_) _
    by_contra! hk
    have : 2 ^ (52 + k) < 2 ^ (52 + k) := by
      calc 2 ^ (52 + k) ≤ (2 ^ 52 + (mantField w).toNat) * 2 ^ ((expField w).toNat - 1) := hmag
        _ < 2 ^ 53 * 2 ^ ((expField w).toNat - 1) :=
          Nat.mul_lt_mul_of_pos_right (by omega) (Nat.two_pow_pos _)
        _ = 2 ^ (53 + ((expField w).toNat - 1)) := (pow_add 2 _ _).symm
        _ ≤ 2 ^ (52 + k) := Nat.pow_le_pow_right two_pos (by omega)
    exact lt_irrefl _ this

/-! ### Rational results -/

/-- A whole number of units as a rational number. -/
def ofUnits (j : Int) : ℚ := (j : ℚ) / 2 ^ 1074

theorem exactValue_eq_some_iff (v : FloatVal) (r : ℚ) :
    exactValue v = some r ↔ ∃ neg mag, v = .finite neg mag ∧ r = ofUnits (signedUnits neg mag) := by
  cases v with
  | finite neg mag => simp [exactValue, ofUnits, eq_comm]
  | infinite neg => simp [exactValue]

theorem signedUnits_mul (s t : Bool) (m n : Nat) :
    signedUnits s m * signedUnits t n = signedUnits (s ^^ t) (m * n) := by
  cases s <;> cases t <;> simp [signedUnits]

theorem natAbs_signedUnits (neg : Bool) (mag : Nat) : (signedUnits neg mag).natAbs = mag := by
  cases neg <;> simp [signedUnits]

theorem signedUnits_eq_mul (neg : Bool) (mag : Nat) :
    signedUnits neg mag = signedUnits neg 1 * mag := by
  cases neg <;> simp [signedUnits]

theorem abs_signedUnits_one (neg : Bool) : |(signedUnits neg 1 : ℚ)| = 1 := by
  cases neg <;> simp [signedUnits]

/-- The exact result `± num / den`, in units of 2^-1074, as a rational number. -/
def exactResult (neg : Bool) (num den : Nat) : ℚ :=
  signedUnits neg 1 * ((num : ℚ) / den) / 2 ^ 1074

section

variable (neg : Bool) {num den : Nat}

theorem abs_exactResult (num den : Nat) :
    |exactResult neg num den| = (num : ℚ) / den / 2 ^ 1074 := by
  rw [exactResult, abs_div, abs_mul, abs_signedUnits_one, one_mul,
    abs_of_nonneg (by positivity : (0 : ℚ) ≤ num / den),
    abs_of_nonneg (by positivity : (0 : ℚ) ≤ 2 ^ 1074)]

theorem exactResult_neg_iff (hnum : 0 < num) (hden : 0 < den) :
    exactResult neg num den < 0 ↔ neg = true := by
  have hpos : (0 : ℚ) < (num : ℚ) / den / 2 ^ 1074 := by positivity
  rw [exactResult, mul_div_assoc]
  cases neg
  · simp [signedUnits, hpos.le]
  · simp [signedUnits, hpos]

/-- The overflow threshold in units. -/
theorem abs_exactResult_lt_iff (hden : 0 < den) :
    |exactResult neg num den| < (2 ^ 54 - 1) * 2 ^ 970 ↔
      num < (2 ^ 54 - 1) * (den * 2 ^ 2044) := by
  have hden' : (0 : ℚ) < den := by exact_mod_cast hden
  have hthreshold : ((2 ^ 54 - 1) * 2 ^ 970 * 2 ^ 1074 * den : ℚ) =
      (((2 ^ 54 - 1) * (den * 2 ^ 2044) : Nat) : ℚ) := by
    have hcast : ((2 ^ 54 - 1 : Nat) : ℚ) = 2 ^ 54 - 1 := by norm_num
    rw [Nat.cast_mul, hcast, Nat.cast_mul, Nat.cast_pow, Nat.cast_ofNat, pow_add 2 970 1074,
      mul_assoc _ (2 ^ 970), mul_assoc, mul_comm (2 ^ 970 * 2 ^ 1074 : ℚ)]
  rw [abs_exactResult, div_lt_iff₀ (by positivity), div_lt_iff₀ hden', hthreshold, Nat.cast_lt]

/-- How far a whole number of units is from the exact result, as a fraction of integers. -/
theorem abs_ofUnits_sub_exactResult (num : Nat) (hden : 0 < den) (j : Int) :
    |ofUnits (signedUnits neg 1 * j) - exactResult neg num den| =
      ((|j * den - num| : Int) : ℚ) / (den * 2 ^ 1074) := by
  have hden' : (0 : ℚ) < den := by exact_mod_cast hden
  have hfactor : ofUnits (signedUnits neg 1 * j) - exactResult neg num den =
      signedUnits neg 1 * ((j * den - num) / (den * 2 ^ 1074)) := by
    rw [ofUnits, exactResult]
    push_cast
    field_simp
  rw [hfactor, abs_mul, abs_signedUnits_one, one_mul, abs_div,
    abs_of_pos (by positivity : (0 : ℚ) < den * 2 ^ 1074)]
  push_cast
  rfl

/-- The lowest bit of a packed double is its significand's. -/
theorem getLsbD_zero_signed63 {bits : Nat} (h : bits < infBits) :
    (signed63 neg bits).getLsbD 0 = decide (bits % 2 = 1) := by
  have hbits : bits < 0x7FF * 2 ^ 52 := h
  rw [BitVec.getLsbD, Nat.testBit_zero, toNat_signed63 neg (by omega)]
  congr 1
  rw [eq_iff_iff]
  omega

/-- Below the overflow threshold the packed bits are those of a nearest double, the even one at a
tie. -/
theorem nearestEven_roundBits (hden : 0 < den) (hfin : num < (2 ^ 54 - 1) * (den * 2 ^ 2044)) :
    NearestEven (exactResult neg num den) (signed63 neg (roundBits num den)) := by
  have hbits := lt_of_not_ge (mt (infBits_le_iff hden).mp hfin.not_ge)
  have hround : roundBits num den = binade num den * 2 ^ 52 + significand num den :=
    (roundBits_eq num den).trans (min_eq_right hbits.le)
  rw [← hround] at hbits
  have hvalue : floatValue (signed63 neg (roundBits num den)) =
      .finite neg (significand num den * 2 ^ binade num den) := by
    rw [floatValue_signed63 neg hbits, hround,
      bitsUnits_pack (significand_le hden) (le_significand hden)]
  refine ⟨ofUnits (signedUnits neg (significand num den * 2 ^ binade num den)),
    kind_signed63 neg hbits.le, by rw [hvalue]; rfl, fun z u _ hz => ?_⟩
  obtain ⟨g, mag, hfinite, rfl⟩ := (exactValue_eq_some_iff _ _).mp hz
  have hj : signedUnits g mag = signedUnits neg 1 * signedUnits (neg ^^ g) mag := by
    rw [signedUnits_mul, one_mul, ← Bool.xor_assoc, Bool.xor_self, Bool.false_xor]
  obtain ⟨hle, htie⟩ := significand_nearest (num := num) hden (j := signedUnits (neg ^^ g) mag)
    fun k hk => by
      rw [natAbs_signedUnits] at *
      exact pow_dvd_of_floatValue hfinite hk
  have hscale : (0 : ℚ) < den * 2 ^ 1074 := by positivity
  rw [hj, signedUnits_eq_mul neg (_ * _), abs_ofUnits_sub_exactResult neg num hden,
    abs_ofUnits_sub_exactResult neg num hden, div_le_div_iff_of_pos_right hscale,
    div_left_inj' hscale.ne', Int.cast_le, Int.cast_inj]
  refine ⟨hle, fun heq => (htie heq).imp (fun h => by rw [h]) fun heven => ?_⟩
  rw [getLsbD_zero_signed63 neg hbits, hround, decide_eq_false_iff_not]
  omega

theorem infinityWord_eq (neg : Bool) : infinityWord neg = infWord neg := by
  cases neg <;> rfl

/-- The exact result rounds to the double that `roundBits` packs. -/
theorem roundsTo_roundBits (num : Nat) (hden : 0 < den) :
    RoundsTo (exactResult neg num den) (signed63 neg (roundBits num den)) := by
  by_cases hfin : num < (2 ^ 54 - 1) * (den * 2 ^ 2044)
  · exact (if_pos ((abs_exactResult_lt_iff neg hden).mpr hfin)).mpr
      (nearestEven_roundBits neg hden hfin)
  · have hover := not_lt.mp hfin
    have hnum : 0 < num := lt_of_lt_of_le (by positivity) hover
    have hinf : roundBits num den = infBits :=
      (roundBits_eq num den).trans (min_eq_left ((infBits_le_iff hden).mpr hover))
    rw [RoundsTo, if_neg (mt (abs_exactResult_lt_iff neg hden).mp hfin), hinf]
    simp only [exactResult_neg_iff neg hnum hden]
    exact (infinityWord_eq neg).symm

end

/-! ### The four operations on finite values -/

section

variable (s t : Bool) (m n : Nat)

theorem fadd64_roundsTo : ∃ w, fadd64 (.finite s m) (.finite t n) = some w ∧
    RoundsTo (ofUnits (signedUnits s m) + ofUnits (signedUnits t n)) w := by
  have hsum : ofUnits (signedUnits s m) + ofUnits (signedUnits t n) =
      ofUnits (signedUnits s m + signedUnits t n) := by
    rw [ofUnits, ofUnits, ofUnits, Int.cast_add, add_div]
  rw [hsum]
  simp only [fadd64]
  generalize signedUnits s m + signedUnits t n = r
  split_ifs with hzero
  · refine ⟨_, rfl, ?_⟩
    have hexact : ofUnits r = exactResult (s && t) 0 1 := by simp [hzero, ofUnits, exactResult]
    rw [hexact]
    exact roundsTo_roundBits _ 0 one_pos
  · refine ⟨_, rfl, ?_⟩
    have hsign : r = signedUnits (decide (r < 0)) 1 * r.natAbs := by
      rw [← signedUnits_eq_mul]
      unfold signedUnits
      split_ifs with hneg <;> simp only [decide_eq_true_eq] at hneg <;> omega
    have hexact : ofUnits r = exactResult (decide (r < 0)) r.natAbs 1 := by
      conv_lhs => rw [hsign]
      simp [ofUnits, exactResult]
    rw [hexact]
    exact roundsTo_roundBits _ _ one_pos

theorem fmul64_roundsTo : ∃ w, fmul64 (.finite s m) (.finite t n) = some w ∧
    RoundsTo (ofUnits (signedUnits s m) * ofUnits (signedUnits t n)) w := by
  have hexact : ofUnits (signedUnits s m) * ofUnits (signedUnits t n) =
      exactResult (s ^^ t) (m * n) (2 ^ 1074) := by
    have hprod : (signedUnits s m : ℚ) * signedUnits t n =
        signedUnits (s ^^ t) 1 * (m * n : Nat) := by
      exact_mod_cast (signedUnits_mul s t m n).trans (signedUnits_eq_mul _ _)
    rw [ofUnits, ofUnits, exactResult, div_mul_div_comm, hprod, Nat.cast_pow, Nat.cast_ofNat,
      ← mul_div_assoc, div_div]
  rw [hexact]
  exact ⟨_, rfl, roundsTo_roundBits _ _ (pow_pos two_pos _)⟩

theorem fdiv64_roundsTo (hn : n ≠ 0) : ∃ w, fdiv64 (.finite s m) (.finite t n) = some w ∧
    RoundsTo (ofUnits (signedUnits s m) / ofUnits (signedUnits t n)) w := by
  have hexact : ofUnits (signedUnits s m) / ofUnits (signedUnits t n) =
      exactResult (s ^^ t) (m * 2 ^ 1074) n := by
    have hscale : (2 ^ 1074 : ℚ) ≠ 0 := pow_ne_zero _ two_ne_zero
    rw [ofUnits, ofUnits, exactResult, div_div_div_cancel_right₀ hscale, mul_div_assoc,
      div_right_comm, Nat.cast_mul, Nat.cast_pow, Nat.cast_ofNat, mul_div_cancel_right₀ _ hscale]
    cases s <;> cases t <;> simp [signedUnits, neg_div, div_neg]
  rw [hexact]
  exact ⟨_, if_neg hn, roundsTo_roundBits _ _ (Nat.pos_of_ne_zero hn)⟩

end

end Sys2Proof.Machine

section

open Sys2Proof Sys2Proof.Machine Sys2Proof.Claims

/-- Settles O31: each operation's exact result is a signed fraction of units, which `roundBits`
rounds; a difference is the sum with the negated value. -/
theorem floatResultsAreNearestEven : Obligations.FloatResultsAreNearestEven := by
  intro x y a b hx hy
  obtain ⟨s, m, rfl, rfl⟩ := (exactValue_eq_some_iff _ _).mp hx
  obtain ⟨t, n, rfl, rfl⟩ := (exactValue_eq_some_iff _ _).mp hy
  refine ⟨fadd64_roundsTo s t m n, ?_, fmul64_roundsTo s t m n, fun hb => ?_⟩
  · have hneg : -ofUnits (signedUnits t n) = ofUnits (signedUnits (!t) n) := by
      cases t <;> simp [ofUnits, signedUnits, neg_div]
    rw [sub_eq_add_neg, hneg]
    exact fadd64_roundsTo s (!t) m n
  · refine fdiv64_roundsTo s t m n ?_
    rintro rfl
    simp [ofUnits, signedUnits] at hb

end

/-! ## The float operations outside rounding: NaNs, signs and infinities (42_arithmetic.md R96,
R97) -/

namespace Sys2Proof.Machine

open Sys2Proof.Claims

/-! ### The operations that have no double as their answer -/

theorem negFloat_eq_infinite_iff (v : FloatVal) (g : Bool) :
    negFloat v = .infinite g ↔ v = .infinite (!g) := by
  cases v <;> simp [negFloat, Bool.not_eq_eq_eq_not]

theorem fadd64_eq_none_iff (x y : FloatVal) :
    fadd64 x y = none ↔ ∃ g, x = .infinite g ∧ y = .infinite (!g) := by
  match x, y with
  | .finite s m, .finite t n =>
    obtain ⟨w, hw, -⟩ := fadd64_finite (.finite s m) t n
    simp [hw]
  | .finite _ _, .infinite _ => simp [fadd64]
  | .infinite _, .finite _ _ => simp [fadd64]
  | .infinite s, .infinite t => cases s <;> cases t <;> simp [fadd64]

theorem fsub64_eq_none_iff (x y : FloatVal) :
    fsub64 x y = none ↔ ∃ g, x = .infinite g ∧ y = .infinite g := by
  simp only [fsub64, fadd64_eq_none_iff, negFloat_eq_infinite_iff, Bool.not_not]

theorem fmul64_eq_none_iff (x y : FloatVal) :
    fmul64 x y = none ↔ (∃ g h, x = .finite g 0 ∧ y = .infinite h) ∨
      ∃ g h, x = .infinite g ∧ y = .finite h 0 := by
  match x, y with
  | .finite _ _, .finite _ _ => exact iff_of_false (Option.some_ne_none _) (by simp)
  | .finite _ _, .infinite _ => simp [fmul64]
  | .infinite _, .finite _ _ => simp [fmul64]
  | .infinite _, .infinite _ => simp [fmul64]

theorem fdiv64_eq_none_iff (x y : FloatVal) (hy : floatIsZero y = false) :
    fdiv64 x y = none ↔ ∃ g h, x = .infinite g ∧ y = .infinite h := by
  match x, y with
  | .finite s m, .finite t n =>
    have hn : n ≠ 0 := by simpa [floatIsZero] using hy
    rw [fdiv64, if_neg hn]
    exact iff_of_false (Option.some_ne_none _) (by simp)
  | .finite _ _, .infinite _ => simp [fdiv64]
  | .infinite _, .finite _ _ => simp [fdiv64]
  | .infinite _, .infinite _ => simp [fdiv64]

/-! ### Signs -/

theorem signedUnits_not (neg : Bool) (mag : Nat) :
    signedUnits (!neg) mag = -signedUnits neg mag := by
  cases neg <;> simp [signedUnits]

/-- A finite value and its negation cancel to +0. -/
theorem fadd64_neg_cancel (neg : Bool) (mag : Nat) :
    fadd64 (.finite neg mag) (.finite (!neg) mag) = some 0#64 := by
  simp only [fadd64, signedUnits_not, add_neg_cancel, if_true, Bool.and_not_self]
  rfl

/-- The sign of a value. -/
def floatSign : FloatVal → Bool
  | .finite neg _ => neg
  | .infinite neg => neg

theorem floatSign_floatValue (w : Word) : floatSign (floatValue w) = signField w := by
  unfold floatValue
  dsimp only
  split_ifs <;> rfl

theorem signField_of_some_signed63 {neg : Bool} {bits : Nat} {w : Word}
    (h : some (signed63 neg bits) = some w) : signField w = neg := by
  rw [← Option.some.inj h, signField_signed63]

theorem signField_fmul64 {x y : FloatVal} {w : Word} (h : fmul64 x y = some w) :
    signField w = (floatSign x ^^ floatSign y) := by
  match x, y with
  | .finite _ _, .finite _ _ => exact signField_of_some_signed63 h
  | .finite _ _, .infinite _ =>
    exact signField_of_some_signed63 (Option.ite_none_left_eq_some.mp h).2
  | .infinite _, .finite _ _ =>
    exact signField_of_some_signed63 (Option.ite_none_left_eq_some.mp h).2
  | .infinite _, .infinite _ => exact signField_of_some_signed63 h

theorem signField_fdiv64 {x y : FloatVal} {w : Word} (h : fdiv64 x y = some w) :
    signField w = (floatSign x ^^ floatSign y) := by
  match x, y with
  | .finite _ _, .finite _ _ =>
    rw [fdiv64] at h
    split_ifs at h
    · exact signField_of_some_signed63 h
    · exact signField_of_some_signed63 h
  | .finite _ _, .infinite _ => exact signField_of_some_signed63 h
  | .infinite _, .finite _ _ => exact signField_of_some_signed63 h

/-! ### Infinities -/

theorem floatValue_infWord (neg : Bool) : floatValue (infWord neg) = .infinite neg := by
  have hexp : (expField (infWord neg)).toNat = 0x7FF := by cases neg <;> rfl
  rw [floatValue, hexp, if_pos rfl, infWord, signField_signed63]

theorem zeroWord_eq (neg : Bool) : zeroWord neg = signed63 neg 0 := by
  cases neg <;> rfl

theorem fadd64_infinite_left {g : Bool} {v : FloatVal} (h : v ≠ .infinite (!g)) :
    fadd64 (.infinite g) v = some (infWord g) := by
  cases v with
  | finite t n => rfl
  | infinite t =>
    have ht : t = g := by simpa using h
    exact if_pos ht.symm

theorem fadd64_infinite_right {g : Bool} {v : FloatVal} (h : v ≠ .infinite (!g)) :
    fadd64 v (.infinite g) = some (infWord g) := by
  cases v with
  | finite s m => rfl
  | infinite s =>
    have hs : s = g := by simpa using h
    rw [hs, fadd64, if_pos rfl]

end Sys2Proof.Machine

section

open Sys2Proof Sys2Proof.Machine Sys2Proof.Claims

/-- Settles O28: one list of operand pairs for each operation; the default NaN is a fixed word. -/
theorem naNOnlyFromInvalidOperations : Obligations.NaNOnlyFromInvalidOperations :=
  ⟨fadd64_eq_none_iff, fsub64_eq_none_iff, fmul64_eq_none_iff, fdiv64_eq_none_iff, rfl, rfl⟩

/-- Settles O29: a difference is the sum with the negated value; the product and quotient pack
their sign. -/
theorem floatSignRules : Obligations.FloatSignRules := by
  refine ⟨fun g m => ⟨fadd64_neg_cancel g m, fadd64_neg_cancel g m⟩, rfl, rfl, rfl, fun g => ?_,
    fun a b w _ _ => ⟨fun h => ?_, fun h => ?_⟩⟩
  · cases g <;> exact ⟨rfl, rfl⟩
  · have hsign := signField_fmul64 h
    rwa [floatSign_floatValue, floatSign_floatValue] at hsign
  · have hsign := signField_fdiv64 h
    rwa [floatSign_floatValue, floatSign_floatValue] at hsign

/-- Settles O30: the operations on an infinity, with the infinities and zeros as signed bits. -/
theorem floatInfinities : Obligations.FloatInfinities := by
  unfold Obligations.FloatInfinities
  simp only [infinityWord_eq, zeroWord_eq]
  refine ⟨fun g => ⟨kind_infWord g, floatValue_infWord g⟩, fun g v => ⟨fun hv => ?_, fun hv => ?_⟩,
    fun _ _ => rfl, fun g h m => ⟨fun hm => ⟨if_neg hm, if_neg hm, rfl⟩, rfl⟩⟩
  · exact ⟨fadd64_infinite_left hv, fadd64_infinite_right hv⟩
  · refine ⟨fadd64_infinite_left ?_, fadd64_infinite_right (g := !g) ?_⟩
    · rwa [Ne, negFloat_eq_infinite_iff, Bool.not_not]
    · rwa [Bool.not_not]

end

/-! ## The float instructions (42_arithmetic.md R98 to R101) -/

namespace Sys2Proof.Machine

open Sys2Proof.Claims

theorem asFloat_of_kind {w : Word} (h : kind w = .float) : asFloat w = some (floatValue w) :=
  if_pos h

theorem asFloat_of_kind_ne {w : Word} (h : kind w ≠ .float) : asFloat w = none :=
  if_neg h

theorem finishAlu_some (rest : List Word) (w : Word) (s : State) :
    finishAlu rest (some w) s = .next { s with stack := w :: rest, ip := s.ip + 1#64 } := rfl

theorem finishAlu_none (rest : List Word) (s : State) :
    finishAlu rest none s = .next (s.faultedBy .divisionByZero 6 .nothing) := rfl

theorem floatResult_eq_pushedFloat (r : Option Word) : floatResult r = pushedFloat r := by
  cases r <;> rfl

/-- A double is a zero exactly when no bit is set but, in −0, the sign. -/
theorem floatIsZero_floatValue_iff (w : Word) :
    floatIsZero (floatValue w) = true ↔ w = 0#64 ∨ w = 0x8000000000000000#64 := by
  have hfields : floatIsZero (floatValue w) = true ↔
      (expField w).toNat = 0 ∧ (mantField w).toNat = 0 := by
    unfold floatValue
    dsimp only
    split_ifs with hinf hsub
    · simp [floatIsZero, hinf]
    · simp [floatIsZero, hsub]
    · simp [floatIsZero, hsub]
  have hlt := w.isLt
  rw [hfields, toNat_expField, toNat_mantField, ← BitVec.toNat_inj, ← BitVec.toNat_inj,
    BitVec.toNat_ofNat, BitVec.toNat_ofNat]
  omega

section

variable {s : State} {a b : Word} {rest : List Word} (hs : s.stack = b :: a :: rest)
  (op : FloatVal → FloatVal → Option Word)

include hs

theorem floatBinary_of_floats (ha : kind a = .float) (hb : kind b = .float) :
    floatBinary op s = finishAlu rest (op (floatValue a) (floatValue b)) s := by
  rw [floatBinary, withTwo_of_stack hs]
  simp only [asFloat_of_kind ha, asFloat_of_kind hb]

theorem floatBinary_of_not_floatPair (h : floatPair (kind a) (kind b) = false) :
    floatBinary op s =
      .next (s.faultedBy .typeMismatch 5 (.kinds (kind a) (kind b))) := by
  rw [floatBinary, withTwo_of_stack hs]
  by_cases ha : kind a = .float
  · have hb : kind b ≠ .float := by
      intro hb
      simp [floatPair, ha, hb] at h
    simp only [asFloat_of_kind ha, asFloat_of_kind_ne hb]
    rfl
  · simp only [asFloat_of_kind_ne ha]
    rfl

end

/-- The checks that come before a float operation. -/
theorem floatBinary_checks {i : Instr} {op : FloatVal → FloatVal → Option Word}
    (hexec : ∀ s, exec i s = floatBinary op s) : NeedsWords i 2 ∧ RejectsKinds i floatPair :=
  ⟨fun s hshort => (hexec s).trans (withTwo_underflow hshort _),
    fun s _ _ _ hs hkinds => (hexec s).trans (floatBinary_of_not_floatPair hs op hkinds)⟩

/-- An instruction that pushes the operation's answer follows the float rule. -/
theorem floatRule_of_exec {i : Instr} {op : FloatVal → FloatVal → Option Word}
    (hexec : ∀ s, exec i s = floatBinary (fun x y => some (floatResult (op x y))) s) :
    FloatRule i op := by
  obtain ⟨hneeds, hrejects⟩ := floatBinary_checks hexec
  refine ⟨hneeds, hrejects, fun s a b rest hs ha hb => ?_⟩
  rw [hexec, floatBinary_of_floats hs _ ha hb, finishAlu_some, floatResult_eq_pushedFloat]

/-! ## The integer instructions (42_arithmetic.md R102 to R106) -/

theorem integerPair_toKind (k : IntKind) : integerPair k.toKind k.toKind = true := by
  cases k <;> rfl

theorem sameInteger_of_not_integerPair {a b : Word} (h : integerPair (kind a) (kind b) = false) :
    sameInteger a b = none := by
  by_contra hne
  obtain ⟨⟨k, x, y⟩, hsome⟩ := Option.ne_none_iff_exists'.mp hne
  obtain ⟨ha, hb⟩ := (sameInteger_eq_some_iff a b k x y).mp hsome
  rw [kind_of_asInteger a k x ha, kind_of_asInteger b k y hb, integerPair_toKind] at h
  exact Bool.noConfusion h

/-- A word whose kind an integer kind names has a value of that kind. -/
theorem exists_asInteger_of_kind {w : Word} {k : IntKind} (h : kind w = k.toKind) :
    ∃ x, asInteger w = some (k, x) := by
  cases k <;> simp [asInteger, asInt64, asUInt64, asByte, h, IntKind.toKind]

section

variable {s : State} {a b : Word} {rest : List Word} (hs : s.stack = b :: a :: rest)
  (op : Int → Int → Option Int)

include hs

theorem intBinary_of_integers {k : IntKind} {x y : Int} (ha : asInteger a = some (k, x))
    (hb : asInteger b = some (k, y)) :
    intBinary op s = finishAlu rest ((op x y).map (pack k)) s := by
  rw [intBinary, withTwo_of_stack hs]
  simp only [(sameInteger_eq_some_iff a b k x y).mpr ⟨ha, hb⟩]

theorem intBinary_of_not_integerPair (h : integerPair (kind a) (kind b) = false) :
    intBinary op s = .next (s.faultedBy .typeMismatch 5 (.kinds (kind a) (kind b))) := by
  rw [intBinary, withTwo_of_stack hs]
  simp only [sameInteger_of_not_integerPair h]
  rfl

end

section

variable {i : Instr} {op : Int → Int → Option Int} (hexec : ∀ s, exec i s = intBinary op s)

include hexec

/-- The checks that come before an integer operation. -/
theorem intBinary_checks : NeedsWords i 2 ∧ RejectsKinds i integerPair :=
  ⟨fun s hshort => (hexec s).trans (withTwo_underflow hshort _),
    fun s _ _ _ hs hkinds => (hexec s).trans (intBinary_of_not_integerPair hs op hkinds)⟩

/-- Where the operation is defined, its result is packed into the operands' kind. -/
theorem integerEffect_of_exec {domain : Int → Prop} {f : Int → Int → Int}
    (hop : ∀ x y, domain y → op x y = some (f x y)) : IntegerEffect i domain f := by
  intro s a b rest hs
  have hpacked (k : IntKind) (x y : Int) (ha : asInteger a = some (k, x))
      (hb : asInteger b = some (k, y)) (hy : domain y) :
      exec i s = .next { s with stack := pack k (f x y) :: rest, ip := s.ip + 1#64 } := by
    rw [hexec, intBinary_of_integers hs op ha hb, hop x y hy]
    rfl
  refine ⟨fun x y ha hb => ?_, fun x y ha hb => ?_, fun x y ha hb => ?_⟩
  · exact hpacked .int64 x y ((asInteger_eq_int64_iff a x).mpr ha)
      ((asInteger_eq_int64_iff b y).mpr hb)
  · exact hpacked .uint64 x y ((asInteger_eq_uint64_iff a x).mpr ha)
      ((asInteger_eq_uint64_iff b y).mpr hb)
  · exact hpacked .byte x.toNat y.toNat ((asInteger_eq_byte_iff a x).mpr ha)
      ((asInteger_eq_byte_iff b y).mpr hb)

end

theorem integerRule_of_exec {i : Instr} {f : Int → Int → Int}
    (hexec : ∀ s, exec i s = intBinary (fun x y => some (f x y)) s) : IntegerRule i f := by
  obtain ⟨hneeds, hrejects⟩ := intBinary_checks hexec
  exact ⟨hneeds, hrejects, integerEffect_of_exec hexec fun _ _ _ => rfl⟩

/-- The accessors' zeros are the integer family's. -/
theorem exists_asInteger_zero {w : Word}
    (h : asInt64 w = some 0 ∨ asUInt64 w = some 0 ∨ asByte w = some 0#8) :
    ∃ k, asInteger w = some (k, 0) := by
  obtain h | h | h := h
  · exact ⟨.int64, (asInteger_eq_int64_iff w 0).mpr h⟩
  · exact ⟨.uint64, (asInteger_eq_uint64_iff w 0).mpr h⟩
  · exact ⟨.byte, (asInteger_eq_byte_iff w 0#8).mpr h⟩

/-- A divisor of value 0 is a division by zero, whatever the dividend of its kind. -/
theorem execIdiv_by_zero {s : State} {a b : Word} {rest : List Word} {k : IntKind} (o : Operand)
    (hs : s.stack = b :: a :: rest) (hkind : kind a = kind b) (hb : asInteger b = some (k, 0)) :
    execIdiv o s = .next (s.faultedBy .divisionByZero 6 .nothing) := by
  obtain ⟨x, ha⟩ := exists_asInteger_of_kind (hkind.trans (kind_of_asInteger b k 0 hb))
  rw [execIdiv, intBinary_of_integers hs _ ha hb, if_pos rfl, Option.map_none, finishAlu_none]

/-! ## inc and dec (42_arithmetic.md R107, R108) -/

theorem floatValue_one : floatValue 0x3FF0000000000000#64 = floatOne := by
  have hexp : (expField 0x3FF0000000000000#64).toNat = 0x3FF := rfl
  have hfrac : (mantField 0x3FF0000000000000#64).toNat = 0 := rfl
  have hsign : signField 0x3FF0000000000000#64 = false := rfl
  have hunits : 52 + (0x3FF - 1) = 1074 := rfl
  rw [floatValue, hexp, hfrac, hsign, if_neg (by decide), if_neg (by decide), Nat.add_zero,
    ← pow_add, hunits, floatOne]

section

variable {w : Word} (fop : FloatVal → FloatVal → Option Word) (iop : Int → Int)

theorem stepWord_of_float (h : kind w = .float) :
    stepWord fop iop w = some (floatResult (fop (floatValue w) floatOne)) := by
  simp only [stepWord, asFloat_of_kind h]

theorem stepWord_of_integer {k : IntKind} {x : Int} (h : asInteger w = some (k, x)) :
    stepWord fop iop w = some (pack k (iop x)) := by
  have hkind : kind w ≠ .float := by
    rw [kind_of_asInteger w k x h]
    cases k <;> decide
  simp only [stepWord, asFloat_of_kind_ne hkind, h]

theorem stepWord_of_no_number (h : kind w = .str ∨ kind w = .other) :
    stepWord fop iop w = none := by
  obtain h | h := h <;> simp [stepWord, asFloat, asInteger, h]

end

section

variable {s : State} {w : Word} {rest : List Word} (hs : s.stack = w :: rest)
  (f : Word → Option Word)

include hs

theorem stepTop_of_some {v : Word} (h : f w = some v) :
    stepTop f s = .next { s with stack := v :: rest, ip := s.ip + 1#64 } := by
  rw [stepTop, withTop_of_stack hs]
  simp only [h]
  rfl

theorem stepTop_of_none (h : f w = none) :
    stepTop f s = .next (s.faultedBy .typeMismatch 5 (.kind (kind w))) := by
  rw [stepTop, withTop_of_stack hs]
  simp only [h]
  rfl

end

/-- An instruction that steps the top word follows the rule of `inc` and `dec`, when the float
operation with 1.0 always answers a double. -/
theorem stepByOneRule_of_exec {i : Instr} {fop : FloatVal → FloatVal → Option Word}
    {f : Int → Int} (hexec : ∀ s, exec i s = stepTop (stepWord fop f) s)
    (hfop : ∀ x, ∃ v, fop x floatOne = some v ∧ kind v = .float) : StepByOneRule i fop f := by
  refine ⟨fun s hshort => (hexec s).trans (withTop_underflow hshort _), fun s w rest hs => ?_⟩
  have hinteger (k : IntKind) (x : Int) (hw : asInteger w = some (k, x)) :
      exec i s = .next { s with stack := pack k (f x) :: rest, ip := s.ip + 1#64 } :=
    (hexec s).trans (stepTop_of_some hs _ (stepWord_of_integer fop f hw))
  refine ⟨fun hw => ?_, fun x hx => ?_, fun x hx => ?_, fun x hx => ?_, fun hw => ?_⟩
  · obtain ⟨v, hv, -⟩ := hfop (floatValue w)
    have hstep := stepWord_of_float fop f hw
    rw [hv] at hstep
    exact ⟨v, floatValue_one ▸ hv, (hexec s).trans (stepTop_of_some hs _ hstep)⟩
  · exact hinteger .int64 x ((asInteger_eq_int64_iff w x).mpr hx)
  · exact hinteger .uint64 x ((asInteger_eq_uint64_iff w x).mpr hx)
  · exact hinteger .byte x.toNat ((asInteger_eq_byte_iff w x).mpr hx)
  · exact (hexec s).trans (stepTop_of_none hs _ (stepWord_of_no_number fop f hw))

end Sys2Proof.Machine

section

open Sys2Proof Sys2Proof.Machine Sys2Proof.Claims

/-- Settles O24: fadd is the shared float body. -/
theorem faddRule : Obligations.FaddRule := fun _ => floatRule_of_exec fun _ => rfl

/-- Settles O25: fsub is the shared float body. -/
theorem fsubRule : Obligations.FsubRule := fun _ => floatRule_of_exec fun _ => rfl

/-- Settles O26: fmul is the shared float body. -/
theorem fmulRule : Obligations.FmulRule := fun _ => floatRule_of_exec fun _ => rfl

/-- Settles O27: fdiv is the shared float body, with its zero test read on the divisor's bits. -/
theorem fdivRule : Obligations.FdivRule := by
  intro o
  obtain ⟨hneeds, hrejects⟩ := floatBinary_checks (i := .fdiv o) fun _ => rfl
  refine ⟨hneeds, hrejects, fun s a b rest hs ha => ⟨fun hzero => ?_, fun hb hpos hneg => ?_⟩⟩
  · have hb : kind b = .float := by obtain rfl | rfl := hzero <;> rfl
    refine (floatBinary_of_floats hs _ ha hb).trans ?_
    rw [if_pos ((floatIsZero_floatValue_iff b).mpr hzero), finishAlu_none]
  · refine (floatBinary_of_floats hs _ ha hb).trans ?_
    rw [if_neg (mt (floatIsZero_floatValue_iff b).mp (not_or.mpr ⟨hpos, hneg⟩)), finishAlu_some,
      floatResult_eq_pushedFloat]

/-- Settles O32: iadd is the shared integer body. -/
theorem iaddRule : Obligations.IaddRule := fun _ => integerRule_of_exec fun _ => rfl

/-- Settles O33: isub is the shared integer body. -/
theorem isubRule : Obligations.IsubRule := fun _ => integerRule_of_exec fun _ => rfl

/-- Settles O34: imul is the shared integer body. -/
theorem imulRule : Obligations.ImulRule := fun _ => integerRule_of_exec fun _ => rfl

/-- Settles O35: idiv is the shared integer body, whose operation has no answer for the divisor
0. -/
theorem idivRule : Obligations.IdivRule := by
  intro o
  have hexec (s : State) : exec (.idiv o) s = execIdiv o s := rfl
  obtain ⟨hneeds, hrejects⟩ := intBinary_checks hexec
  refine ⟨hneeds, hrejects, integerEffect_of_exec hexec fun _ _ hy => if_neg hy,
    fun s a b rest hs hkind hzero => ?_⟩
  obtain ⟨k, hb⟩ := exists_asInteger_zero hzero
  exact execIdiv_by_zero o hs hkind hb

/-- Settles O36: a sum with 1.0 is a double. -/
theorem incRule : Obligations.IncRule := fun _ =>
  stepByOneRule_of_exec (fun _ => rfl) fun x => fadd64_finite x _ _

/-- Settles O37: a difference with 1.0 is the sum with -1.0, a double. -/
theorem decRule : Obligations.DecRule := fun _ =>
  stepByOneRule_of_exec (fun _ => rfl) fun x => fadd64_finite x _ _

end

/-! ## The compare instruction (43_compare.md R110 to R113) -/

namespace Sys2Proof.Machine

open Sys2Proof.Claims

theorem compareFlags_eq_flagsOf (x y : Int) (f : BitVec 6) : compareFlags x y f = flagsOf x y :=
  compareFlags_eq x y f

/-! ### What is comparable -/

section

variable {a b : Word}

theorem comparable_of_floats (ha : kind a = .float) (hb : kind b = .float) :
    comparable a b = some (floatOrder (floatValue a), floatOrder (floatValue b)) := by
  simp only [comparable, asFloat_of_kind ha, asFloat_of_kind hb]

theorem comparable_of_not_floatPair (h : floatPair (kind a) (kind b) = false) :
    comparable a b = (sameInteger a b).map Prod.snd := by
  by_cases ha : kind a = .float
  · have hb : kind b ≠ .float := by
      intro hb
      simp [floatPair, ha, hb] at h
    simp only [comparable, asFloat_of_kind ha, asFloat_of_kind_ne hb]
  · simp only [comparable, asFloat_of_kind_ne ha]

theorem comparable_of_integers {k : IntKind} {x y : Int} (ha : asInteger a = some (k, x))
    (hb : asInteger b = some (k, y)) : comparable a b = some (x, y) := by
  have hnot : floatPair (kind a) (kind b) = false := by
    rw [kind_of_asInteger a k x ha]
    cases k <;> rfl
  rw [comparable_of_not_floatPair hnot, (sameInteger_eq_some_iff a b k x y).mpr ⟨ha, hb⟩,
    Option.map_some]

theorem comparable_eq_none
    (h : (floatPair (kind a) (kind b) || integerPair (kind a) (kind b)) = false) :
    comparable a b = none := by
  obtain ⟨hfloat, hint⟩ := Bool.or_eq_false_iff.mp h
  rw [comparable_of_not_floatPair hfloat, sameInteger_of_not_integerPair hint, Option.map_none]

end

/-! ### What `cmp` does -/

section

variable {s : State} {a b : Word} {rest : List Word} (hs : s.stack = b :: a :: rest) (o : Operand)

include hs

theorem cmpGives_of_comparable {x y : Int} (h : comparable a b = some (x, y)) :
    CmpGives o s rest (flagsOf x y) := by
  have hexec : exec (.cmp o) s =
      completeWith rest (s.withFlags (compareFlags x y s.flags)) :=
    (withTwo_of_stack hs _).trans (by simp only [h])
  rw [CmpGives, hexec, compareFlags_eq_flagsOf]
  rfl

theorem cmp_of_not_comparable (h : comparable a b = none) :
    exec (.cmp o) s = .next (s.faultedBy .typeMismatch 5 (.kinds (kind a) (kind b))) :=
  (withTwo_of_stack hs _).trans (by simp only [h]; rfl)

theorem cmpGives_of_integers {k : IntKind} {x y : Int} (ha : asInteger a = some (k, x))
    (hb : asInteger b = some (k, y)) : CmpGives o s rest (flagsOf x y) :=
  cmpGives_of_comparable hs o (comparable_of_integers ha hb)

theorem cmpGives_of_floats (ha : kind a = .float) (hb : kind b = .float) :
    CmpGives o s rest (flagsOf (floatOrder (floatValue a)) (floatOrder (floatValue b))) :=
  cmpGives_of_comparable hs o (comparable_of_floats ha hb)

end

/-- A `cmp` leaves the stack, by a fault, or writes the flags of some order. -/
theorem Effect.cmp_cases {s t : State} {o : Operand} (e : Effect s (.cmp o) t) :
    t.stack = s.stack ∨ ∃ x y, t.flags = flagsOf x y := by
  cases e with
  | stacked i removed new use moves notCmp => exact absurd rfl (notCmp o)
  | compared o a b x y rest => exact .inr ⟨x, y, compareFlags_eq_flagsOf x y s.flags⟩
  | _ => exact .inl rfl

/-! ### The order of doubles is the order of their bits (R111)

With the sign set aside, the units of a double rise strictly with its bits 62:0, and an infinity's
bits stand where the next binade would begin, at 2^2098 units. -/

theorem strictMono_bitsUnits : StrictMono bitsUnits := by
  refine strictMono_nat_of_lt_succ fun bits => ?_
  obtain ⟨k, m, hlt, hnormal, rfl⟩ :
      ∃ k m, m < 2 ^ 53 ∧ (k ≠ 0 → 2 ^ 52 ≤ m) ∧ bits = k * 2 ^ 52 + m :=
    ⟨bits / 2 ^ 52 - 1, bits - (bits / 2 ^ 52 - 1) * 2 ^ 52, by omega, by omega, by omega⟩
  rw [Nat.add_assoc, bitsUnits_pack hlt.le hnormal,
    bitsUnits_pack hlt fun hk => (hnormal hk).trans m.le_succ]
  exact Nat.mul_lt_mul_of_pos_right m.lt_succ_self (Nat.two_pow_pos k)

theorem bitsUnits_infBits : bitsUnits infBits = 2 ^ 2098 := by
  have hpack : infBits = 2046 * 2 ^ 52 + 2 ^ 52 := rfl
  rw [hpack, bitsUnits_pack (by decide) fun _ => le_rfl, ← pow_add]

/-- The units of the double whose bits, read as a signed magnitude, are `key`. -/
def keyUnits (key : Int) : Int := key.sign * bitsUnits key.natAbs

theorem keyUnits_neg (key : Int) : keyUnits (-key) = -keyUnits key := by
  rw [keyUnits, Int.sign_neg, Int.natAbs_neg, Int.neg_mul, keyUnits]

theorem keyUnits_natCast (bits : Nat) : keyUnits bits = bitsUnits bits := by
  rcases bits.eq_zero_or_pos with rfl | hpos
  · rfl
  · rw [keyUnits, Int.sign_natCast_of_ne_zero hpos.ne', Int.natAbs_natCast, Int.one_mul]

theorem keyUnits_signedUnits (neg : Bool) (bits : Nat) :
    keyUnits (signedUnits neg bits) = signedUnits neg (bitsUnits bits) := by
  cases neg with
  | false => exact keyUnits_natCast bits
  | true => exact (keyUnits_neg bits).trans (congrArg Neg.neg (keyUnits_natCast bits))

theorem strictMono_keyUnits : StrictMono keyUnits := by
  refine strictMono_of_odd_strictMonoOn_nonneg keyUnits_neg fun i hi j hj hlt => ?_
  lift i to ℕ using hi
  lift j to ℕ using hj
  rw [keyUnits_natCast, keyUnits_natCast]
  exact_mod_cast strictMono_bitsUnits (Int.ofNat_lt.mp hlt)

/-- A double is a sign and bits up to an infinity's; `kind_signed63` is the converse. -/
theorem exists_signed63_of_float {w : Word} (h : kind w = .float) :
    ∃ neg bits, bits ≤ infBits ∧ w = signed63 neg bits := by
  rw [kind_eq_float_iff, ← Bool.not_eq_true, isReserved_iff] at h
  have hlt := w.isLt
  have hinf : infBits = 0x7FF * 2 ^ 52 := rfl
  obtain hpos | hneg := lt_or_ge w.toNat (2 ^ 63)
  · refine ⟨false, w.toNat, by omega, BitVec.eq_of_toNat_eq ?_⟩
    rw [toNat_signed63 false hpos, Bool.toNat_false]
    omega
  · refine ⟨true, w.toNat - 2 ^ 63, by omega, BitVec.eq_of_toNat_eq ?_⟩
    rw [toNat_signed63 true (by omega), Bool.toNat_true]
    omega

section

variable (neg : Bool) {bits : Nat} (h : bits ≤ infBits)

include h

theorem floatKey_signed63 : floatKey (signed63 neg bits) = signedUnits neg bits := by
  have hbits : bits < 2 ^ 63 := h.trans_lt (by decide)
  rw [floatKey, toNat_signed63 neg hbits]
  cases neg with
  | false => rw [Bool.toNat_false, Nat.zero_mul, Nat.zero_add, if_pos hbits]; rfl
  | true =>
    rw [Bool.toNat_true, Nat.one_mul, if_neg (by omega), Nat.add_sub_cancel_left]
    rfl

theorem floatOrder_floatValue_signed63 :
    floatOrder (floatValue (signed63 neg bits)) = signedUnits neg (bitsUnits bits) := by
  obtain hfin | rfl := h.lt_or_eq
  · rw [floatValue_signed63 neg hfin, floatOrder]
  · have hword : signed63 neg infBits = infWord neg := rfl
    rw [hword, floatValue_infWord, floatOrder, bitsUnits_infBits]

end

/-- A double's place in the IEEE order is a strictly rising function of its bits. -/
theorem floatOrder_floatValue {w : Word} (h : kind w = .float) :
    floatOrder (floatValue w) = keyUnits (floatKey w) := by
  obtain ⟨neg, bits, hle, rfl⟩ := exists_signed63_of_float h
  rw [floatOrder_floatValue_signed63 neg hle, floatKey_signed63 neg hle, keyUnits_signedUnits]

theorem flagsOf_strictMono {f : Int → Int} (hf : StrictMono f) (x y : Int) :
    flagsOf (f x) (f y) = flagsOf x y := by
  simp only [flagsOf, hf.lt_iff_lt, hf.injective.eq_iff]

end Sys2Proof.Machine

section

open Sys2Proof Sys2Proof.Machine Sys2Proof.Claims

/-- Settles O39: `cmp` orders the units, which rise strictly with the bits. -/
theorem cmpOrdersFloatsByTheirBits : Obligations.CmpOrdersFloatsByTheirBits := by
  intro o s a b rest hs ha hb
  have hgives := cmpGives_of_floats hs o ha hb
  rwa [floatOrder_floatValue ha, floatOrder_floatValue hb,
    flagsOf_strictMono strictMono_keyUnits] at hgives

/-- Settles O40: a `cmp` that moved the stack wrote the flags of one of the three orders. -/
theorem comparisonConsistency : Obligations.ComparisonConsistency := by
  intro o s t hexec hne
  obtain ⟨x, y, hflags⟩ := (effect_of_exec hexec).cmp_cases.resolve_left hne
  rw [hflags, flagsOf]
  split_ifs
  · decide
  · decide
  · decide

/-- Settles O38: the checks of the binary fetch and of `comparable`, then one case per comparable
kind. -/
theorem cmpRule : Obligations.CmpRule := by
  refine fun o => ⟨fun s hshort => withTwo_underflow hshort _,
    fun s a b rest hs hkinds => cmp_of_not_comparable hs o (comparable_eq_none hkinds),
    fun s a b rest hs => ⟨fun x y ha hb => ?_, fun x y ha hb => ?_, fun x y ha hb => ?_,
      cmpGives_of_floats hs o⟩⟩
  · exact cmpGives_of_integers hs o ((asInteger_eq_int64_iff a x).mpr ha)
      ((asInteger_eq_int64_iff b y).mpr hb)
  · exact cmpGives_of_integers hs o ((asInteger_eq_uint64_iff a x).mpr ha)
      ((asInteger_eq_uint64_iff b y).mpr hb)
  · exact cmpGives_of_integers hs o ((asInteger_eq_byte_iff a x).mpr ha)
      ((asInteger_eq_byte_iff b y).mpr hb)

end

/-! ## Control transfer (44_control.md R114 to R125) -/

namespace Sys2Proof.Machine

open Sys2Proof.Claims

/-! ### The checked jump (R114): its two outcomes, by the operand's target -/

section

variable {o : Operand} (taken : Bool) (s : State)

theorem jumpWhen_of_no_target (h : targetOf o = none) :
    jumpWhen taken o s = .next (s.faultedBy .invalidOperand 8 (.operand o)) := by
  simp only [jumpWhen, h]
  rfl

theorem jumpWhen_of_target {t : Word} (h : targetOf o = some t) :
    jumpWhen taken o s = .next { s with ip := if taken then t else s.ip + 1#64 } := by
  simp only [jumpWhen, h]
  cases taken with
  | true => rfl
  | false => rfl

end

/-- An instruction that jumps on a flag follows the conditional jump's rule with that flag's bit. -/
theorem condJumpRule_of_exec {i : Instr} {k : Flag}
    (hexec : ∀ s, exec i s = condJump k i.operand s) : CondJumpRule i (flagBit k) :=
  ⟨fun s hnone => (hexec s).trans (jumpWhen_of_no_target _ s hnone),
    fun s _ htarget => (hexec s).trans (jumpWhen_of_target _ s htarget)⟩

end Sys2Proof.Machine

section

open Sys2Proof Sys2Proof.Machine Sys2Proof.Claims

/-- Settles O41: jmp is the checked jump that is always taken. -/
theorem jmpRule : Obligations.JmpRule := fun _ =>
  ⟨jumpWhen_of_no_target true, fun s _ htarget => jumpWhen_of_target true s htarget⟩

/-- Settles O42: each conditional jump is the checked jump on its own flag, whose bit `flagBit`
gives. -/
theorem conditionalJumpRules : Obligations.ConditionalJumpRules := fun _ =>
  ⟨condJumpRule_of_exec (k := .equal) fun _ => rfl,
    condJumpRule_of_exec (k := .notEqual) fun _ => rfl,
    condJumpRule_of_exec (k := .greater) fun _ => rfl,
    condJumpRule_of_exec (k := .less) fun _ => rfl,
    condJumpRule_of_exec (k := .greaterOrEqual) fun _ => rfl,
    condJumpRule_of_exec (k := .lessOrEqual) fun _ => rfl⟩

/-- Settles O43: nop and label are `advance`, which writes `ip` only. -/
theorem nopAndLabelOnlyAdvance : Obligations.NopAndLabelOnlyAdvance := fun _ _ => ⟨rfl, rfl⟩

/-- Settles O44: halt is `advance` with the writes of `H` and `RS`, three updates of one record. -/
theorem haltRule : Obligations.HaltRule := fun _ _ => rfl

end

/-! ## The environment instructions (45_environment.md R127 to R129): the outcomes of a native call,
by its operand's key, the callback and the host's answer -/

namespace Sys2Proof.Machine

theorem lookupNative_eq_none_iff {table : List (NativeKey × Nat)} {key : NativeKey} :
    lookupNative table key = none ↔ ∀ p ∈ table, p.1 ≠ key := by
  induction table with
  | nil => simp [lookupNative]
  | cons entry rest ih =>
    rw [lookupNative, List.forall_mem_cons]
    split
    next heq => simp [heq]
    next hne => simp [ih, Ne.symm hne]

section

variable {o : Operand} {s : State}

theorem execNative_of_no_key (h : nativeKeyOf o = none) :
    execNative o s = .next (s.faultedBy .invalidOperand 8 (.operand o)) := by
  rw [execNative, h]
  rfl

theorem execNative_of_unknown {key : NativeKey} (hkey : nativeKeyOf o = some key)
    (hnone : lookupNative s.nativeTable key = none) :
    execNative o s = .next (s.faultedBy .unknownNative 7 (.key key)) := by
  simp only [execNative, hkey, hnone]
  rfl

theorem execNative_of_callback {key : NativeKey} {c : Nat} (hkey : nativeKeyOf o = some key)
    (hc : lookupNative s.nativeTable key = some c) :
    execNative o s = applyAnswer key (Config.hostAnswer s.hostDraw c s.stack) s := by
  simp only [execNative, hkey, hc]

end

/-- The stack after the host's answer (R129): only a returned stack replaces it. -/
def answeredStack (depth : Option Nat) (stack : List Word) : HostAnswer → List Word
  | .ret returned => boundStack depth returned
  | .fail => stack
  | .never => stack

/-- The stack after a native call, from what the call may see of the state: a call that reaches no
callback leaves the stack (R128). -/
def nativeStack (o : Operand) (table : List (NativeKey × Nat)) (depth : Option Nat) (draw : Nat)
    (stack : List Word) : List Word :=
  match (nativeKeyOf o).bind (lookupNative table) with
  | none => stack
  | some c => answeredStack depth stack (Config.hostAnswer draw c stack)

theorem applyAnswer_stack {key : NativeKey} {ans : HostAnswer} {s t : State}
    (h : applyAnswer key ans s = .next t) : t.stack = answeredStack s.stackDepth s.stack ans := by
  cases ans with
  | ret returned => cases h; rfl
  | fail => cases h; rfl
  | never => cases h; rfl

theorem execNative_stack {o : Operand} {s t : State} (h : execNative o s = .next t) :
    t.stack = nativeStack o s.nativeTable s.stackDepth s.hostDraw s.stack := by
  unfold nativeStack
  cases hkey : nativeKeyOf o with
  | none =>
    rw [execNative_of_no_key hkey] at h
    cases h
    rfl
  | some key =>
    rw [Option.bind_some]
    cases hlook : lookupNative s.nativeTable key with
    | none =>
      rw [execNative_of_unknown hkey hlook] at h
      cases h
      rfl
    | some c =>
      rw [execNative_of_callback hkey hlook] at h
      exact applyAnswer_stack h

end Sys2Proof.Machine

section

open Sys2Proof Sys2Proof.Machine

/-- Settles O48: the stack after a native call is `nativeStack` of the four parts the two states
share. -/
theorem nativeSeesOnlyTheStack : Obligations.NativeSeesOnlyTheStack := by
  intro o s s' t t' hstack htable hdepth hdraw h h'
  rw [execNative_stack h, execNative_stack h', hstack, htable, hdepth, hdraw]

/-- Settles O45: the two branches of `withTop`; the body appends the top word. -/
theorem dmpRule : Obligations.DmpRule := fun _ =>
  ⟨fun _ hshort => withTop_underflow hshort _, fun _ _ _ hs => withTop_of_stack hs _⟩

/-- Settles O46: the operand is checked before the table. -/
theorem nativeRefusesBadKeys : Obligations.NativeRefusesBadKeys := fun _ _ =>
  ⟨execNative_of_no_key,
    fun _ hkey habsent => execNative_of_unknown hkey (lookupNative_eq_none_iff.mpr habsent)⟩

/-- Settles O47: the callback is reached, and each of the host's three answers has its own next
state. -/
theorem nativeFollowsTheHostAnswer : Obligations.NativeFollowsTheHostAnswer := by
  intro o s key c hkey hc
  refine (execNative_of_callback hkey hc).trans ?_
  cases Config.hostAnswer s.hostDraw c s.stack with
  | ret stack => rfl
  | fail => rfl
  | never => rfl

end

/-! ## Faults (60_exceptions.md R132): a step that ends Faulted is a fault's entry -/

namespace Sys2Proof.Machine

/-- Of the effects of an instruction only a fault makes a state Faulted. -/
theorem Effect.eq_enterFault {s t : State} {i : Instr} (e : Effect s i t)
    (hok : s.runState ≠ .faulted) (hfault : t.runState = .faulted) :
    ∃ k info, t = enterFault k info s := by
  cases e with
  | faulted i k info => exact ⟨k, info, rfl⟩
  | halted o => cases hfault
  | _ => exact absurd hfault hok

end Sys2Proof.Machine

section

open Sys2Proof Sys2Proof.Machine

/-- Settles O49: a step past the end halts, and each of the other two ways to Faulted is a fault's
entry, which is `State.faultedBy` by definition. -/
theorem faultsArePrecise : Obligations.FaultsArePrecise := by
  intro s t hstep hfault
  obtain ⟨hrun, ⟨-, rfl⟩ | ⟨bytes, -, rfl⟩ | ⟨i, -, hexec⟩⟩ := step_next_cases hstep
  · cases hfault
  · exact ⟨.invalidEncoding, .slotBytes bytes, rfl⟩
  · exact (effect_of_exec hexec).eq_enterFault (by simp [hrun]) hfault

end

/-! ## Launch (70_reset_and_hazards.md R144 to R147): the launch parameters along a step, and what
the host's load puts in the slots -/

namespace Sys2Proof.Machine

/-- A step past the end, a step on an illegal slot and every instruction keep the launch
parameters. -/
theorem sameLaunch_of_step {s t : State} (h : step s = .next t) : SameLaunch s t := by
  obtain ⟨-, ⟨-, rfl⟩ | ⟨bytes, -, rfl⟩ | ⟨i, -, hexec⟩⟩ := step_next_cases h
  · exact ⟨rfl, rfl, rfl, rfl, rfl, rfl⟩
  · exact ⟨rfl, rfl, rfl, rfl, rfl, rfl⟩
  · exact (effect_of_exec hexec).sameLaunch

theorem slotRead_of_program_eq {s t : State} (h : t.program = s.program) (i : Word) :
    slotRead t i = slotRead s i := by
  rw [slotRead, slotRead, h]

theorem programBytes_congr {m m' : Memory} {a n : Nat}
    (h : ∀ b < a + n, programByte m b = programByte m' b) :
    programBytes m a n = programBytes m' a n := by
  apply List.ext_getElem
  · rw [programBytes_length, programBytes_length]
  · intro k hk _
    rw [programBytes_length] at hk
    rw [getElem_programBytes, getElem_programBytes, h (a + k) (by omega)]

theorem programByte_storeSlot_of_lt (m : Memory) {i : Word} {b : Nat} (bytes : List Byte)
    (h : b < slotAddress i) : programByte (storeSlot m i bytes) b = programByte m b := by
  rw [programByte, storeSlot, Memory.read_writeBytes, dif_neg (by omega), programByte]

theorem slotAddress_add_one {i : Word} (h : i.toNat + 1 < 2 ^ 64) :
    slotAddress (i + 1#64) = slotAddress i + Config.recordCapacity := by
  have hnowrap : (i + 1#64).toNat = i.toNat + 1 := BitVec.toNat_add_of_lt h
  rw [slotAddress, slotAddress, hnowrap, Nat.mul_succ]

/-- The host's load from slot `i` on writes no byte before slot `i`. -/
theorem programByte_storeSlots_of_lt (m : Memory) {i : Word} {b : Nat} {records : List (List Byte)}
    (hfit : i.toNat + records.length < 2 ^ 64) (hb : b < slotAddress i) :
    programByte (storeSlots m i records) b = programByte m b := by
  induction records generalizing m i with
  | nil => rfl
  | cons r rs ih =>
    rw [List.length_cons] at hfit
    have hnext := slotAddress_add_one (i := i) (by omega)
    calc programByte (storeSlots (storeSlot m i r) (i + 1#64) rs) b
        = programByte (storeSlot m i r) b := ih _ (by bv_omega) (by omega)
      _ = programByte m b := programByte_storeSlot_of_lt m r hb

/-- The load of the later records leaves the slot of the first as it is. -/
theorem slotBytes_storeSlots_cons (m : Memory) {i : Word} (r : List Byte) {rs : List (List Byte)}
    (hfit : i.toNat + (rs.length + 1) < 2 ^ 64) :
    programBytes (storeSlots m i (r :: rs)) (slotAddress i) Config.recordCapacity =
      programBytes (storeSlot m i r) (slotAddress i) Config.recordCapacity := by
  refine programBytes_congr fun b hb => ?_
  rw [← slotAddress_add_one (by omega)] at hb
  exact programByte_storeSlots_of_lt (storeSlot m i r) (by bv_omega) hb

/-- The slot of each record the host loads starts with the record's bytes (R47). -/
theorem take_slotBytes_storeSlots (m : Memory) {i : Word} {records : List (List Byte)}
    (hfit : i.toNat + records.length < 2 ^ 64)
    (hlen : ∀ r ∈ records, r.length ≤ Config.recordCapacity) (k : Nat) (hk : k < records.length) :
    (programBytes (storeSlots m i records) (slotAddress (i + BitVec.ofNat 64 k))
      Config.recordCapacity).take records[k].length = records[k] := by
  induction records generalizing m i k with
  | nil => cases hk
  | cons r rs ih =>
    rw [List.length_cons] at hfit
    obtain ⟨hr, hrs⟩ := List.forall_mem_cons.mp hlen
    cases k with
    | zero =>
      rw [BitVec.add_zero, slotBytes_storeSlots_cons m r hfit]
      exact take_programBytes_writeBytes m _ _ r hr
    | succ k =>
      have hindex : i + BitVec.ofNat 64 (k + 1) = i + 1#64 + BitVec.ofNat 64 k := by bv_omega
      rw [hindex]
      exact ih _ (by bv_omega) hrs k (Nat.lt_of_succ_lt_succ hk)

end Sys2Proof.Machine

section

open Sys2Proof Sys2Proof.Machine

/-- Settles O55: a step keeps the program, so every byte and slot read from it. -/
theorem launchParametersAreFixed : Obligations.LaunchParametersAreFixed := by
  intro s t hstep
  obtain ⟨hlength, hprogram, htable, hlabels, hpath, -⟩ := sameLaunch_of_step hstep
  exact ⟨fun a => by rw [hprogram], slotRead_of_program_eq hprogram, hprogram, hlength, htable,
    hlabels, hpath⟩

/-- Settles O59: the number of records fits `N`, and the load starts at slot 0. -/
theorem launchedRecordsStandInTheirSlots : Obligations.LaunchedRecordsStandInTheirSlots := by
  intro records table labels path depth hcount hlen
  refine ⟨rfl, rfl, Nat.mod_eq_of_lt hcount, fun i hi => ?_⟩
  have hslot := take_slotBytes_storeSlots [] (i := 0#64) (by simpa using hcount) hlen i hi
  rwa [BitVec.zero_add] at hslot

/-- Settles O1: the reset state is written out with these values. -/
theorem resetState : Obligations.ResetState := ⟨rfl, rfl, rfl, rfl, rfl, rfl, rfl⟩

end
